-- ==== Sys2Proof/Word.lean ====
section
/-! DEFINITION. Word.lean: the two word types of the block (00_scope.md R4, R5). -/

namespace Sys2Proof

/-- A Byte: "an 8-bit unsigned unit" (R5, `BYTE_W = 8` of R4). -/
abbrev Byte := BitVec 8

/-- A Codepoint: "a 32-bit unsigned integer" (R5, `CP_W = 32` of R4). It can hold any 32-bit value; a *scalar value* is
the subset the units accept or produce (90_conflicts.md C5). -/
abbrev Codepoint := BitVec 32

end Sys2Proof
end

