-- ==== Sys2Proof/Config.lean ====
section
/-! DEFINITION. Config.lean: the fixed parameters (00_scope.md R4) and the shared constants (00_scope.md R12).
The one OPEN parameter that bears on one instance, `BUF_CAP`, is a field of State (assumption 2); its value at
`State.reset` is named here. There is no free value: the spec leaves no result of a transaction open. -/

namespace Sys2Proof.Config

/-- `MAX_SEQ`: the longest unit, in bytes (R4). -/
def maxSeq : Nat := 4

/-- `CP_MAX`: the largest codepoint either unit accepts (R4). -/
def cpMax : Codepoint := 0x10FFFF#32

/-- `SUR_LO`, `SUR_HI`: the ends of the surrogate band (R4). -/
def surLo : Codepoint := 0xD800#32
def surHi : Codepoint := 0xDFFF#32

/-- The marker of a continuation byte, bits 7:6 = `10`, and the mask that selects them (R12). -/
def contMark : Byte := 0x80#8
def contMarkMask : Byte := 0xC0#8

/-- The 6 data bits of a continuation byte (R12). -/
def contDataMask : Byte := 0x3F#8

/-- The lead markers of the 2-, 3- and 4-byte forms (R12). -/
def lead2Mark : Byte := 0xC0#8
def lead3Mark : Byte := 0xE0#8
def lead4Mark : Byte := 0xF0#8

/-- The lead data masks of the 2-, 3- and 4-byte forms: 5, 4 and 3 data bits (R12). -/
def lead2DataMask : Byte := 0x1F#8
def lead3DataMask : Byte := 0x0F#8
def lead4DataMask : Byte := 0x07#8

/-- `ASCII_MAX`: the largest 1-byte value (R12). -/
def asciiMax : Byte := 0x7F#8

/-- The largest `BUF_CAP` the 35-bit command word admits: "With this word, `BUF_CAP <= 2^32 - 1`" (30_encoding.md R88). -/
def bufCapMax : Nat := 4294967295

/-- DESIGN CHOICE (assumption 2, unsafe for a claim that rests on it): the capacity of the instance that
`State.reset` describes. `BUF_CAP` is OPEN (R4); every statement about a state ranges over every capacity. -/
def bufCapAtReset : Nat := bufCapMax

end Sys2Proof.Config
end

