-- ==== Sys2Proof/Syntax.lean ====
section
/-! DEFINITION. Syntax.lean: the instructions, one constructor per row of spec/opcode_table.json, and the two shapes in which
the hardware presents them: byte-stream units (30_encoding.md R70) and command words (30_encoding.md R88). -/

namespace Sys2Proof

/-- A unit of the byte stream as `NEXT` finds it at the cursor (R70, R76): the class its lead byte selects, the lead's data
bits, and, for the multi-byte forms, the bytes found at its continuation positions, as far as the decoder reads them: it
stops at the end of the buffer and at the first byte without the `10` marker (R110 step 4, R118). A form whose list is short
or ends unmarked is "the same form failing" (30_encoding.md section 5; assumption 7). -/
inductive UnitForm where
  /-- `0vvvvvvv` (R71) -/
  | u1 (v : BitVec 7)
  /-- `110aaaaa` and at most 1 continuation position (R72) -/
  | u2 (a : BitVec 5) (ks : List Byte)
  /-- `1110aaaa` and at most 2 continuation positions (R73) -/
  | u3 (a : BitVec 4) (ks : List Byte)
  /-- `11110aaa` and at most 3 continuation positions (R74) -/
  | u4 (a : BitVec 3) (ks : List Byte)
  /-- `10xxxxxx` as lead (R76, R81) -/
  | ileadCont (x : BitVec 6)
  /-- `11111xxx` as lead (R76, R81) -/
  | ileadF8 (x : BitVec 3)
deriving DecidableEq, Repr

/-- The instructions: the six unit classes and the six transactions of spec/opcode_table.json. The 32 ignored bits `x` of
`NEXT`, `DECODE` and `RESET` are kept, so that no bit of an encoding is dropped; no meaning reads them (R88). -/
inductive Instr where
  | u1 (v : BitVec 7)
  | u2 (a : BitVec 5) (ks : List Byte)
  | u3 (a : BitVec 4) (ks : List Byte)
  | u4 (a : BitVec 3) (ks : List Byte)
  | ileadCont (x : BitVec 6)
  | ileadF8 (x : BitVec 3)
  /-- `SETBUF(bytes)` (R100) -/
  | setbuf (bytes : List Byte)
  /-- `SEEK(p)` (R101) -/
  | seek (p : BitVec 32)
  /-- `NEXT` (R110) -/
  | next (x : BitVec 32)
  /-- `DECODE` (R120) -/
  | decode (x : BitVec 32)
  /-- `ENCODE(cp)` (R140) -/
  | encode (cp : Codepoint)
  /-- `RESET` (R190) -/
  | reset (x : BitVec 32)
deriving DecidableEq, Repr

/-- The instruction that a unit of the byte stream is. -/
def UnitForm.toInstr : UnitForm → Instr
  | .u1 v => .u1 v
  | .u2 a ks => .u2 a ks
  | .u3 a ks => .u3 a ks
  | .u4 a ks => .u4 a ks
  | .ileadCont x => .ileadCont x
  | .ileadF8 x => .ileadF8 x

/-- A transaction as the host presents it (R88): the 35-bit command word `cmd[34:0]` and the bytes that accompany it. -/
structure HostCmd where
  word    : BitVec 35
  payload : List Byte
deriving DecidableEq, Repr

/-- `op = cmd[34:32]` (R88). -/
def HostCmd.op (c : HostCmd) : BitVec 3 := c.word.extractLsb' 32 3

/-- `arg = cmd[31:0]` (R88). -/
def HostCmd.arg (c : HostCmd) : BitVec 32 := c.word.setWidth 32

/-- What an instruction is encoded as: a string of bytes in `IBUF`, first byte at the lowest index, or a command. -/
inductive Encoded where
  | unit (bytes : List Byte)
  | command (c : HostCmd)
deriving DecidableEq, Repr

end Sys2Proof
end

