-- ==== Sys2Proof/Machine/State.lean ====
section
/-! DEFINITION. Machine/State.lean: the state (10_state.md R20), the reasons a step can stop, and the state after reset
(10_state.md R38). State is plain data. -/

namespace Sys2Proof.Machine

/-- A memory: (index, value) pairs, indices strictly rising (`Memory.wf`). An index that is not listed holds NO VALUE: the
spec leaves every entry unspecified at reset and says a model must not assume any value for it (R38, R190; assumption 3). -/
abbrev Memory (α : Type) := List (Nat × α)

/-- The canonical form: indices strictly rising. Since an unlisted index reads as no value, no listed value is redundant. -/
abbrev Memory.wf {α : Type} (m : Memory α) : Prop := m.Pairwise (fun x y => x.1 < y.1)

/-- The error kinds a decoder transaction reports, codes 3 to 8 (60_exceptions.md R160). They are statuses of completed
transactions, not faults (R167). -/
inductive ErrorKind where
  | truncated
  | invalidLeadByte
  | invalidContinuationByte
  | overlongEncoding
  | surrogateCodepoint
  | outOfRangeCodepoint
deriving DecidableEq, Repr

/-- The values of `D_STATUS` (R27). -/
inductive DStatus where
  | none
  | value
  | endOfInput
  | error (k : ErrorKind)
deriving DecidableEq, Repr

/-- The values of `E_STATUS` (R31). -/
inductive EStatus where
  | none
  | ok
  | invalidCodepoint
deriving DecidableEq, Repr

/-- The register file `E_B[0..3]` (R33). -/
structure EncBytes where
  b0 : Byte
  b1 : Byte
  b2 : Byte
  b3 : Byte
deriving DecidableEq, Repr

/-- The architectural state of one instance, "and nothing else" (R20), and two fields of the model's own. -/
structure State where
  /-- `IBUF`: the input byte buffer (R25) -/
  ibuf    : Memory Byte
  /-- `END`: the number of valid bytes in `IBUF` (R22) -/
  endPos  : Nat
  /-- `POS`: the cursor position (R21) -/
  pos     : Nat
  /-- `D_STATUS` (R27) -/
  dStatus : DStatus
  /-- `D_CP` (R28) -/
  dCp     : Codepoint
  /-- `D_NCONS` (R29) -/
  dNcons  : BitVec 3
  /-- `OBUF`: the output codepoint buffer (R26) -/
  obuf    : Memory Codepoint
  /-- `OCNT`: the number of valid entries in `OBUF` (R30) -/
  ocnt    : Nat
  /-- `E_STATUS` (R31) -/
  eStatus : EStatus
  /-- `E_LEN` (R32) -/
  eLen    : BitVec 3
  /-- `E_B[0..3]` (R33) -/
  eB      : EncBytes
  /-- the model's own: the OPEN parameter `BUF_CAP` (R4), written by no transaction (assumption 2) -/
  bufCap  : Nat
  /-- the model's own: the transactions the host has issued and the block has not performed, oldest first (R59, R203;
  assumption 1) -/
  pending : List HostCmd
deriving DecidableEq, Repr

/-- Why a step stops with a fault. Each is raised only in a state that breaks an invariant the spec states (R24, R52), which
no run from reset reaches (assumption 4). All are safe: the spec gives no behaviour there. -/
inductive Fault where
  /-- `NEXT`, `DECODE`: a read of `IBUF` at or beyond `END` or `BUF_CAP`, where "no read exists to be modelled" (R52); safe -/
  | ibufReadBounds
  /-- `NEXT`, `DECODE`: a read of an entry of `IBUF` below `END` that nothing has written (R38, R53); safe -/
  | ibufNoValue
  /-- `SETBUF`: a write at or beyond `BUF_CAP`, an index that does not exist (R51); safe -/
  | ibufWriteBounds
  /-- `DECODE`: a write at or beyond `OUT_CAP`, an index that does not exist (R26, R51); safe -/
  | obufWriteBounds
  /-- `NEXT`, `DECODE`: the cursor lies beyond the end boundary, where R92 says nothing; safe -/
  | cursorBeyondEnd
  /-- `DECODE`: more than `END + 1` iterations, which R124 rules out; safe -/
  | loopBound
deriving DecidableEq, Repr

/-- Why a step gives no meaning: the three refusals of 60_exceptions.md R172 ("a model should give it no meaning"), a
command that is none of R88's, and an instruction without a meaning in the model. -/
inductive Refusal where
  /-- exec: an instruction whose meaning is not written; no arm of exec raises it; safe -/
  | notModelled (mnemonic : String)
  /-- step: command code `0b000` or `0b110` (R89, R172); safe -/
  | unassignedOp
  /-- step: a command accompanied by another number of bytes than R88 says (assumption 6); safe -/
  | payloadLength
  /-- `SETBUF` of more than `BUF_CAP` bytes (R100, R172); safe -/
  | setbufTooLong
  /-- `SEEK` beyond `END` (R101, R172); safe -/
  | seekBeyondEnd
deriving DecidableEq, Repr

/-- The state after reset of an instance of capacity `cap` (R38, R190): every register zero, both memories without a value,
nothing pending. -/
def State.resetAt (cap : Nat) : State where
  ibuf    := []
  endPos  := 0
  pos     := 0
  dStatus := .none
  dCp     := 0
  dNcons  := 0
  obuf    := []
  ocnt    := 0
  eStatus := .none
  eLen    := 0
  eB      := ⟨0, 0, 0, 0⟩
  bufCap  := cap
  pending := []

/-- The state after reset (R38). Its capacity is the model's choice (assumption 2). -/
def State.reset : State := State.resetAt Config.bufCapAtReset

end Sys2Proof.Machine
end

