-- ==== Sys2Proof/Machine/Ops.lean ====
section
/-! DEFINITION. Machine/Ops.lean: the named operations over memories and registers, the two ends of a decoded unit (value,
failure completion) and what the host reads. Faults of the accessors: see `Fault` (assumption 4). -/

namespace Sys2Proof.Machine

/-- What a transaction's meaning answers. -/
abbrev Result := Host.Outcome State Fault Refusal

/-! ## Memories -/

/-- The value at an index, `none` if nothing has written it since reset. -/
def Memory.read {α : Type} : Memory α → Nat → Option α
  | [], _ => none
  | (k, v) :: m, a => if k = a then some v else Memory.read m a

/-- Write one entry, keeping the indices strictly rising. -/
def Memory.write {α : Type} : Memory α → Nat → α → Memory α
  | [], a, v => [(a, v)]
  | (k, w) :: m, a, v =>
    if a < k then (a, v) :: (k, w) :: m
    else if a = k then (a, v) :: m
    else (k, w) :: Memory.write m a v

/-- Write consecutive entries from an index on. -/
def Memory.writeFrom {α : Type} (m : Memory α) (a : Nat) : List α → Memory α
  | [] => m
  | v :: vs => Memory.writeFrom (Memory.write m a v) (a + 1) vs

/-! ## Register writes -/

/-- Write `POS`. -/
def State.withPos (s : State) (p : Nat) : State := { s with pos := p }

/-- Write `END`. -/
def State.withEnd (s : State) (n : Nat) : State := { s with endPos := n }

/-- Write `OCNT`. -/
def State.withOcnt (s : State) (n : Nat) : State := { s with ocnt := n }

/-- Write the decoder's three result registers `D_STATUS`, `D_CP`, `D_NCONS` (R27 to R29). -/
def State.withResult (s : State) (st : DStatus) (cp : Codepoint) (n : BitVec 3) : State :=
  { s with dStatus := st, dCp := cp, dNcons := n }

/-- Write the encoder's registers `E_STATUS`, `E_LEN`, `E_B[0..3]` (R31 to R33). -/
def State.withEncoder (s : State) (st : EStatus) (len : BitVec 3) (bs : EncBytes) : State :=
  { s with eStatus := st, eLen := len, eB := bs }

/-- Replace the contents of `IBUF`. -/
def State.withIbuf (s : State) (m : Memory Byte) : State := { s with ibuf := m }

/-- Replace the contents of `OBUF`. -/
def State.withObuf (s : State) (m : Memory Codepoint) : State := { s with obuf := m }

/-- Replace the transactions that wait. -/
def State.withPending (s : State) (q : List HostCmd) : State := { s with pending := q }

/-! ## Memory access -/

/-- `MemRead(a, 1)`: the byte `IBUF[a]`, "only defined under `a < END`" (20_memory.md R52, R53). -/
def ibufRead (s : State) (a : Nat) : Except Fault Byte :=
  if a < s.endPos ∧ a < s.bufCap then
    match Memory.read s.ibuf a with
    | some b => .ok b
    | none => .error .ibufNoValue
  else .error .ibufReadBounds

/-- `MemWrite(a, 1, v)`: `IBUF[a] <- v` (00_scope.md R8); `IBUF` has the addresses `0..BUF_CAP-1` (R51). -/
def ibufWrite (s : State) (a : Nat) (v : Byte) : Except Fault State :=
  if a < s.bufCap then .ok (s.withIbuf (Memory.write s.ibuf a v)) else .error .ibufWriteBounds

/-- `OBUF[i] <- v` (00_scope.md R8); `OBUF` has the addresses `0..OUT_CAP-1`, and `OUT_CAP = BUF_CAP` (R26, R51). -/
def obufWrite (s : State) (i : Nat) (v : Codepoint) : Except Fault State :=
  if i < s.bufCap then .ok (s.withObuf (Memory.write s.obuf i v)) else .error .obufWriteBounds

/-- The reader `NEXT` gives the unit decoder: position `k` of the unit is `IBUF[POS + k]`, read only after
`POS + k < END` has been established (R52). -/
def cursorReader (s : State) (k : Nat) : Except Fault (Option Byte) :=
  if s.endPos ≤ s.pos + k then .ok none
  else
    match ibufRead s (s.pos + k) with
    | .ok b => .ok (some b)
    | .error f => .error f

/-! ## The ends of a unit -/

/-- Taking an exception, the block's way: `raise K`, the failure completion of 60_exceptions.md R166. `POS` keeps the
address of the failing unit, the result registers are rewritten, nothing else changes. There is no return from it (R170):
every later transaction runs from the state as it stands (R171). -/
def raiseKind (k : ErrorKind) (s : State) : Result := .next (s.withResult (.error k) 0 0)

/-- Full success of a unit of length `len` (R110 step 8): the value and its length, and only now the cursor advances. -/
def completeValue (v : Codepoint) (len : Nat) (s : State) : Result :=
  .next ((s.withResult .value v (BitVec.ofNat 3 len)).withPos (s.pos + len))

/-- `NEXT` at the end of the buffer (R111): `END_OF_INPUT`, `POS` unchanged. -/
def completeEndOfInput (s : State) : Result := .next (s.withResult .endOfInput 0 0)

/-! ## What the host reads (10_state.md R35) -/

/-- The code of an error kind (60_exceptions.md R160). -/
def ErrorKind.code : ErrorKind → BitVec 4
  | .truncated => 3
  | .invalidLeadByte => 4
  | .invalidContinuationByte => 5
  | .overlongEncoding => 6
  | .surrogateCodepoint => 7
  | .outOfRangeCodepoint => 8

/-- The 4 bits of `D_STATUS` (R27). -/
def DStatus.code : DStatus → BitVec 4
  | .none => 0
  | .value => 1
  | .endOfInput => 2
  | .error k => k.code

/-- The 4 bits of `E_STATUS` (R31). -/
def EStatus.code : EStatus → BitVec 4
  | .none => 0
  | .ok => 1
  | .invalidCodepoint => 9

/-- The registers of R20. -/
inductive Reg where
  | endPos | pos | dStatus | dCp | dNcons | ocnt | eStatus | eLen | eB0 | eB1 | eB2 | eB3
deriving DecidableEq, Repr

/-- The number the host reads from a register. A read changes nothing (R35), so it is no step. -/
def hostRead (s : State) : Reg → Nat
  | .endPos => s.endPos
  | .pos => s.pos
  | .dStatus => s.dStatus.code.toNat
  | .dCp => s.dCp.toNat
  | .dNcons => s.dNcons.toNat
  | .ocnt => s.ocnt
  | .eStatus => s.eStatus.code.toNat
  | .eLen => s.eLen.toNat
  | .eB0 => s.eB.b0.toNat
  | .eB1 => s.eB.b1.toNat
  | .eB2 => s.eB.b2.toNat
  | .eB3 => s.eB.b3.toNat

/-- The width of a register in an instance of capacity `cap` (R20); `POS_W = ceil(log2(BUF_CAP + 1))` (00_scope.md R4). -/
def Reg.width (cap : Nat) : Reg → Nat
  | .endPos | .pos | .ocnt => Nat.clog 2 (cap + 1)
  | .dStatus | .eStatus => 4
  | .dCp => 32
  | .dNcons | .eLen => 3
  | .eB0 | .eB1 | .eB2 | .eB3 => 8

/-- The entry of `IBUF` the host reads; `none` where nothing has written it since reset. -/
def hostReadIbuf (s : State) (a : Nat) : Option Byte := Memory.read s.ibuf a

/-- The entry of `OBUF` the host reads; `none` where nothing has written it since reset. -/
def hostReadObuf (s : State) (i : Nat) : Option Codepoint := Memory.read s.obuf i

/-- The four registers `E_B[0..3]` in order. -/
def EncBytes.toList (e : EncBytes) : List Byte := [e.b0, e.b1, e.b2, e.b3]

/-- The sequence the host takes from the encoder: `E_B[0 .. E_LEN-1]` (R33). -/
def encodedBytes (s : State) : List Byte := s.eB.toList.take s.eLen.toNat

/-- The sequence the host takes from the output buffer: `OBUF[0 .. OCNT-1]` (R30). -/
def decodedSequence (s : State) : List (Option Codepoint) := (List.range s.ocnt).map (hostReadObuf s)

/-- The valid bytes of the input buffer: `IBUF[0 .. END-1]` (R22). -/
def bufferBytes (s : State) : List (Option Byte) := (List.range s.endPos).map (hostReadIbuf s)

end Sys2Proof.Machine
end

