-- ==== Sys2Proof/Machine/Buffer.lean ====
section
/-! DEFINITION. Machine/Buffer.lean: the buffer and cursor transactions `SETBUF` and `SEEK` (40_buffer_and_cursor.md). -/

namespace Sys2Proof.Machine

/-- `for i: MemWrite(a + i, 1, bytes[i])` (R100). -/
def loadBytes (s : State) (a : Nat) : List Byte → Except Fault State
  | [] => .ok s
  | b :: bs =>
    match ibufWrite s a b with
    | .error f => .error f
    | .ok s' => loadBytes s' (a + 1) bs

/-- `SETBUF(bytes)` (R100): refused if longer than `BUF_CAP`; else the bytes are loaded from index 0 on and a cursor is
created at the start of the new buffer. -/
def execSetbuf (bytes : List Byte) (s : State) : Result :=
  if s.bufCap < bytes.length then .refused .setbufTooLong
  else
    match loadBytes s 0 bytes with
    | .error f => .fault f
    | .ok t => .next ((((t.withEnd bytes.length).withPos 0).withResult .none 0 0).withOcnt 0)

/-- `SEEK(p)` (R101): refused if `p > END`; else the cursor is placed and the previous result discarded. -/
def execSeek (p : BitVec 32) (s : State) : Result :=
  if s.endPos < p.toNat then .refused .seekBeyondEnd
  else .next ((s.withPos p.toNat).withResult .none 0 0)

end Sys2Proof.Machine
end

