-- ==== Sys2Proof/Decode.lean ====
section
/-! DEFINITION. Decode.lean: from bits to instructions and back. The byte-stream units (30_encoding.md R70 to R76) are read
through a reader of one continuation position at a time, so that the same decoder serves a list of bytes and `IBUF`; the
commands (30_encoding.md R88, R89) are read from the 35-bit word and its payload. After the decoder, the encoder. -/

namespace Sys2Proof

/-! ## Units -/

/-- The six classes of a lead byte (R76). -/
inductive LeadClass where
  | u1 | u2 | u3 | u4 | cont | f8
deriving DecidableEq, Repr

/-- The class of a lead byte by the masks of spec/opcode_table.json (30_encoding.md section 5). The last class is what the
other five leave: `11111xxx`, that is `0xF8..0xFF` (R76, "The six ranges are disjoint and cover `0x00..0xFF`"). -/
def leadClass (b : Byte) : LeadClass :=
  if b &&& 0x80#8 == 0x00#8 then .u1
  else if b &&& 0xC0#8 == 0x80#8 then .cont
  else if b &&& 0xE0#8 == 0xC0#8 then .u2
  else if b &&& 0xF0#8 == 0xE0#8 then .u3
  else if b &&& 0xF8#8 == 0xF0#8 then .u4
  else .f8

/-- Bits 7:6 of a byte are `10` (30_encoding.md R75). -/
def marked (b : Byte) : Bool := b &&& Config.contMarkMask == Config.contMark

/-- The bytes at continuation positions `k`, `k + 1`, … of a form with `n` of them left: none from the position the reader
says is past the end, and none after the first unmarked byte (R110 step 4, R118). -/
def contsFrom {ε : Type} (read : Nat → Except ε (Option Byte)) : Nat → Nat → Except ε (List Byte)
  | _, 0 => .ok []
  | k, n + 1 =>
    match read k with
    | .error e => .error e
    | .ok none => .ok []
    | .ok (some b) =>
      if marked b then
        match contsFrom read (k + 1) n with
        | .error e => .error e
        | .ok ks => .ok (b :: ks)
      else .ok [b]

/-- A form with `n` continuation positions, `build` applied to what stands there. -/
def formFrom {ε : Type} (read : Nat → Except ε (Option Byte)) (n : Nat) (build : List Byte → UnitForm) :
    Except ε (Option UnitForm) :=
  match contsFrom read 1 n with
  | .error e => .error e
  | .ok ks => .ok (some (build ks))

/-- The unit at position 0 of a reader, `none` if there is no byte: the lead byte alone tells the form (R76), then the
continuation positions are read in order. -/
def unitFrom {ε : Type} (read : Nat → Except ε (Option Byte)) : Except ε (Option UnitForm) :=
  match read 0 with
  | .error e => .error e
  | .ok none => .ok none
  | .ok (some b0) =>
    match leadClass b0 with
    | .u1 => .ok (some (.u1 (b0.setWidth 7)))
    | .u2 => formFrom read 1 (.u2 (b0.setWidth 5))
    | .u3 => formFrom read 2 (.u3 (b0.setWidth 4))
    | .u4 => formFrom read 3 (.u4 (b0.setWidth 3))
    | .cont => .ok (some (.ileadCont (b0.setWidth 6)))
    | .f8 => .ok (some (.ileadF8 (b0.setWidth 3)))

/-- The reader of a list of bytes that ends where the list does. It never fails. -/
def listReader (bytes : List Byte) (k : Nat) : Except Empty (Option Byte) := .ok bytes[k]?

/-- The unit a list of bytes begins with, the list being all that is left of the buffer; `none` for no byte. -/
def decodeUnit (bytes : List Byte) : Option UnitForm :=
  match unitFrom (listReader bytes) with
  | .ok u => u
  | .error e => e.elim

/-! ## Commands -/

/-- Why a command is not a transaction. -/
inductive CommandReject where
  /-- `op` is `0b000` or `0b110`: unassigned (R89) -/
  | unassignedOp
  /-- another number of bytes accompanies the word than R88 says (`arg` for `SETBUF`, none otherwise); assumption 6 -/
  | payloadLength
deriving DecidableEq, Repr

/-- A command that no byte accompanies (R88). -/
def noPayload (c : HostCmd) (i : Instr) : Except CommandReject Instr :=
  if c.payload = [] then .ok i else .error .payloadLength

/-- The transaction a command stands for (R88, R89). -/
def decodeCommand (c : HostCmd) : Except CommandReject Instr :=
  match c.op.toNat with
  | 1 => if c.payload.length = c.arg.toNat then .ok (.setbuf c.payload) else .error .payloadLength
  | 2 => noPayload c (.seek c.arg)
  | 3 => noPayload c (.next c.arg)
  | 4 => noPayload c (.decode c.arg)
  | 5 => noPayload c (.encode c.arg)
  | 7 => noPayload c (.reset c.arg)
  | _ => .error .unassignedOp

/-! ## The decoder as a whole -/

/-- Why a string of bytes or a command is no instruction. -/
inductive DecodeReject where
  /-- there is no byte to decode -/
  | noByte
  | command (r : CommandReject)
deriving DecidableEq, Repr

/-- The instruction an encoding stands for: the unit a string of bytes begins with, or the transaction of a command. -/
def decode : Encoded → Except DecodeReject Instr
  | .unit bytes =>
    match decodeUnit bytes with
    | some u => .ok u.toInstr
    | none => .error .noByte
  | .command c =>
    match decodeCommand c with
    | .ok i => .ok i
    | .error r => .error (.command r)

/-! ## The encoder -/

/-- The command word of a 3-bit `op` and a 32-bit `arg` (R88). -/
def commandWord (op : BitVec 3) (arg : BitVec 32) : BitVec 35 := op ++ arg

/-- The encoding of an instruction, from the same tables (R70 to R74, R88). -/
def encode : Instr → Encoded
  | .u1 v => .unit [v.setWidth 8]
  | .u2 a ks => .unit ((Config.lead2Mark ||| a.setWidth 8) :: ks)
  | .u3 a ks => .unit ((Config.lead3Mark ||| a.setWidth 8) :: ks)
  | .u4 a ks => .unit ((Config.lead4Mark ||| a.setWidth 8) :: ks)
  | .ileadCont x => .unit [Config.contMark ||| x.setWidth 8]
  | .ileadF8 x => .unit [0xF8#8 ||| x.setWidth 8]
  | .setbuf bytes => .command ⟨commandWord 1 (BitVec.ofNat 32 bytes.length), bytes⟩
  | .seek p => .command ⟨commandWord 2 p, []⟩
  | .next x => .command ⟨commandWord 3 x, []⟩
  | .decode x => .command ⟨commandWord 4 x, []⟩
  | .encode cp => .command ⟨commandWord 5 cp, []⟩
  | .reset x => .command ⟨commandWord 7 x, []⟩

/-! ## Words as spec/opcode_table.json numbers them (assumption 8) -/

/-- The `n` bytes of a unit string that the table writes as one number, "b0 in the high byte". -/
def tableBytes : Nat → Nat → List Byte
  | 0, _ => []
  | n + 1, w => BitVec.ofNat 8 (w / 256 ^ n) :: tableBytes n w

/-- The command of a 35-bit command word, with as many bytes of zero as a `SETBUF` word announces. -/
def tableCommand (w : Nat) : HostCmd :=
  let word := BitVec.ofNat 35 w
  let c : HostCmd := ⟨word, []⟩
  if c.op = 1 then ⟨word, List.replicate c.arg.toNat 0⟩ else c

/-- Where the table's bits go: a row of at most 32 bits is a unit string (the unit rows have 8 to 32 bits), a longer one is
the 35-bit command word. -/
def tableEncoded (nbits w : Nat) : Encoded :=
  if nbits ≤ 32 then .unit (tableBytes ((nbits + 7) / 8) w) else .command (tableCommand w)

/-- The instruction the decoder reads from a word of spec/opcode_table.json; `none` where it refuses, and for a number that
does not fit the 35-bit command word. -/
def decodeTableWord (nbits w : Nat) : Option Instr :=
  if 32 < nbits ∧ 2 ^ 35 ≤ w then none
  else
    match decode (tableEncoded nbits w) with
    | .ok i => some i
    | .error _ => none

end Sys2Proof
end

