-- ==== Sys2Proof/Machine/Operands.lean ====
section
/-! DEFINITION. Machine/Operands.lean: how operands are formed: the assembly of a codepoint from the bytes of a unit
(30_encoding.md R77) and the packing of a codepoint into bytes (30_encoding.md R78). -/

namespace Sys2Proof.Machine

/-- The data bits of a continuation byte, `zext_32(b & 0x3F)` (R75, R77). -/
def contData (b : Byte) : Codepoint := (b &&& Config.contDataMask).setWidth 32

/-- The loop over the continuation positions (R110 step 4) with `n` of them left: a missing byte is `TRUNCATED`, an unmarked
one `INVALID_CONTINUATION_BYTE`, whichever position comes first (60_exceptions.md R164), and a marked one is OR-ed in,
shifted by `6 *` the positions after it (R77). -/
def assembleFrom (acc : Codepoint) : Nat → List Byte → Except ErrorKind Codepoint
  | 0, _ => .ok acc
  | _ + 1, [] => .error .truncated
  | n + 1, b :: ks =>
    if marked b then assembleFrom (acc ||| (contData b <<< (6 * n))) n ks
    else .error .invalidContinuationByte

/-- The assembled value of a form of length `len` whose lead carries the data bits `lead` (R110 steps 3 and 4):
the seed is `lead << (6 * (len - 1))`. -/
def assemble (len : Nat) (lead : Codepoint) (ks : List Byte) : Except ErrorKind Codepoint :=
  assembleFrom (lead <<< (6 * (len - 1))) (len - 1) ks

/-- `0x80 | (x & 0x3F)` in 8 bits: a continuation byte that carries bits 5:0 of `x` (R78). -/
def contByte (x : Codepoint) : Byte := Config.contMark ||| (x &&& 0x3F#32).setWidth 8

/-- The four rows of the encoder's table (R78), unused registers zero (10_state.md R33). -/
def pack1 (cp : Codepoint) : EncBytes := ⟨cp.setWidth 8, 0, 0, 0⟩

def pack2 (cp : Codepoint) : EncBytes :=
  ⟨Config.lead2Mark ||| (cp >>> 6).setWidth 8, contByte cp, 0, 0⟩

def pack3 (cp : Codepoint) : EncBytes :=
  ⟨Config.lead3Mark ||| (cp >>> 12).setWidth 8, contByte (cp >>> 6), contByte cp, 0⟩

def pack4 (cp : Codepoint) : EncBytes :=
  ⟨Config.lead4Mark ||| (cp >>> 18).setWidth 8, contByte (cp >>> 12), contByte (cp >>> 6), contByte cp⟩

end Sys2Proof.Machine
end

