-- ==== Sys2Proof/Machine/Flags.lean ====
section
/-! DEFINITION. Machine/Flags.lean: the block's only flags are its two status registers (10_state.md R36); here is how their
values are computed: the tests on an assembled value and their order (60_exceptions.md R164), and the encoder's result. -/

namespace Sys2Proof.Machine

/-- The value lies in the surrogate band `0xD800..0xDFFF`. -/
def isSurrogate (v : Codepoint) : Bool := decide (Config.surLo ≤ v ∧ v ≤ Config.surHi)

/-- The smallest value a form of length `len` may carry (30_encoding.md R83): below it the unit is overlong. -/
def minValue : Nat → Codepoint
  | 2 => 0x80
  | 3 => 0x800
  | 4 => 0x10000
  | _ => 0

/-- Steps 5 to 7 of R110 on the assembled value, in their order (R164): overlong, surrogate, out of range. -/
def checkValue (len : Nat) (v : Codepoint) : Except ErrorKind Codepoint :=
  if v < minValue len then .error .overlongEncoding
  else if isSurrogate v then .error .surrogateCodepoint
  else if Config.cpMax < v then .error .outOfRangeCodepoint
  else .ok v

/-- Steps 3 to 7 of R110 for a multi-byte form. -/
def unitValue (len : Nat) (lead : Codepoint) (ks : List Byte) : Except ErrorKind Codepoint :=
  match assemble len lead ks with
  | .error k => .error k
  | .ok v => checkValue len v

/-- How a multi-byte form ends: failure completion or full success (R110). -/
def finishUnit (len : Nat) (r : Except ErrorKind Codepoint) (s : State) : Result :=
  match r with
  | .error k => raiseKind k s
  | .ok v => completeValue v len s

/-- What `ENCODE` writes: `E_STATUS`, `E_LEN`, `E_B[0..3]`. -/
structure EncResult where
  status : EStatus
  len    : BitVec 3
  bytes  : EncBytes
deriving DecidableEq, Repr

/-- The encoder's result is a function of the codepoint alone (42_encoder.md R140): the validity test comes first (R141),
then the four ranges (R142 to R145). -/
def encodeResult (cp : Codepoint) : EncResult :=
  if Config.cpMax < cp ∨ isSurrogate cp then ⟨.invalidCodepoint, 0, ⟨0, 0, 0, 0⟩⟩
  else if cp ≤ 0x7F#32 then ⟨.ok, 1, pack1 cp⟩
  else if cp ≤ 0x7FF#32 then ⟨.ok, 2, pack2 cp⟩
  else if cp ≤ 0xFFFF#32 then ⟨.ok, 3, pack3 cp⟩
  else ⟨.ok, 4, pack4 cp⟩

end Sys2Proof.Machine
end

