-- ==== Sys2Proof/Machine/Units.lean ====
section
/-! DEFINITION. Machine/Units.lean: the six lead-byte classes (41_decoder.md R112 to R116), each one arm of `NEXT`'s dispatch. -/

namespace Sys2Proof.Machine

/-- Class `U1` (R112): the byte is the codepoint. -/
def execU1 (v : BitVec 7) (s : State) : Result := completeValue (v.setWidth 32) 1 s

/-- Class `U2` (R113), `L = 2`. -/
def execU2 (a : BitVec 5) (ks : List Byte) (s : State) : Result := finishUnit 2 (unitValue 2 (a.setWidth 32) ks) s

/-- Class `U3` (R114), `L = 3`. -/
def execU3 (a : BitVec 4) (ks : List Byte) (s : State) : Result := finishUnit 3 (unitValue 3 (a.setWidth 32) ks) s

/-- Class `U4` (R115), `L = 4`. -/
def execU4 (a : BitVec 3) (ks : List Byte) (s : State) : Result := finishUnit 4 (unitValue 4 (a.setWidth 32) ks) s

/-- Class `ILEAD.CONT` (R116): a continuation byte used as lead. -/
def execIleadCont (_x : BitVec 6) (s : State) : Result := raiseKind .invalidLeadByte s

/-- Class `ILEAD.F8` (R116): a byte `0xF8..0xFF` used as lead. -/
def execIleadF8 (_x : BitVec 3) (s : State) : Result := raiseKind .invalidLeadByte s

/-- `NEXT`'s dispatch on the class of the lead byte (R110). -/
def runUnit (u : UnitForm) (s : State) : Result :=
  match u with
  | .u1 v => execU1 v s
  | .u2 a ks => execU2 a ks s
  | .u3 a ks => execU3 a ks s
  | .u4 a ks => execU4 a ks s
  | .ileadCont x => execIleadCont x s
  | .ileadF8 x => execIleadF8 x s

end Sys2Proof.Machine
end

