-- ==== Sys2Proof/Machine/Decoder.lean ====
section
/-! DEFINITION. Machine/Decoder.lean: the decoder transactions `NEXT` and `DECODE` (41_decoder.md R110, R120). -/

namespace Sys2Proof.Machine

/-- The body of `NEXT` (R110): the end test, then the unit at the cursor is read and its class runs. -/
def nextUnit (s : State) : Result :=
  if s.pos = s.endPos then completeEndOfInput s
  else
    match unitFrom (cursorReader s) with
    | .error f => .fault f
    | .ok none => .fault .cursorBeyondEnd
    | .ok (some u) => runUnit u s

/-- `NEXT` (R110, R111); the argument is ignored (R88). -/
def execNext (_x : BitVec 32) (s : State) : Result := nextUnit s

/-- `OBUF[OCNT] <- D_CP; OCNT <- OCNT + 1` (R120). -/
def appendValue (s : State) : Except Fault State :=
  match obufWrite s s.ocnt s.dCp with
  | .error f => .error f
  | .ok t => .ok (t.withOcnt (s.ocnt + 1))

/-- The loop of `DECODE` (R120), at most `n` iterations: it goes on after a `VALUE` and ends at any other status. -/
def decodeLoop : Nat → State → Result
  | 0, _ => .fault .loopBound
  | n + 1, s =>
    match nextUnit s with
    | .next t =>
      if t.dStatus = .value then
        match appendValue t with
        | .ok t' => decodeLoop n t'
        | .error f => .fault f
      else .next t
    | .fault f => .fault f
    | .refused r => .refused r

/-- `DECODE` (R120): from position 0 with no output, whatever the cursor was; `END + 1` iterations suffice (R124). The
argument is ignored (R88). -/
def execDecode (_x : BitVec 32) (s : State) : Result := decodeLoop (s.endPos + 1) ((s.withPos 0).withOcnt 0)

end Sys2Proof.Machine
end

