-- ==== Sys2Proof/Machine/Encoder.lean ====
section
/-! DEFINITION. Machine/Encoder.lean: the encoder transaction `ENCODE` (42_encoder.md R140). -/

namespace Sys2Proof.Machine

/-- `ENCODE(cp)` (R140): writes the encoder's registers and nothing else, from `cp` alone. -/
def execEncode (cp : Codepoint) (s : State) : Result :=
  let r := encodeResult cp
  .next (s.withEncoder r.status r.len r.bytes)

end Sys2Proof.Machine
end

