-- ==== Sys2Proof/Machine/Reset.lean ====
section
/-! DEFINITION. Machine/Reset.lean: the transaction `RESET` (70_reset_and_hazards.md R190). -/

namespace Sys2Proof.Machine

/-- `RESET` (R190): both units to the state of 10_state.md R38; the capacity is no state, and the transactions the host
has issued after it still wait (R59; assumption 1). The argument is ignored (R88). -/
def execReset (_x : BitVec 32) (s : State) : Result := .next ((State.resetAt s.bufCap).withPending s.pending)

end Sys2Proof.Machine
end

