-- ==== Sys2Proof/Machine/Dispatch.lean ====
section
/-! DEFINITION. Machine/Dispatch.lean: one arm per constructor of Instr. -/

namespace Sys2Proof.Machine

def exec (i : Instr) (s : State) : Host.Outcome State Fault Refusal :=
  match i with
  | .u1 v => Sys2Proof.Machine.execU1 v s
  | .u2 a ks => Sys2Proof.Machine.execU2 a ks s
  | .u3 a ks => Sys2Proof.Machine.execU3 a ks s
  | .u4 a ks => Sys2Proof.Machine.execU4 a ks s
  | .ileadCont x => Sys2Proof.Machine.execIleadCont x s
  | .ileadF8 x => Sys2Proof.Machine.execIleadF8 x s
  | .setbuf bytes => Sys2Proof.Machine.execSetbuf bytes s
  | .seek p => Sys2Proof.Machine.execSeek p s
  | .next x => Sys2Proof.Machine.execNext x s
  | .decode x => Sys2Proof.Machine.execDecode x s
  | .encode cp => Sys2Proof.Machine.execEncode cp s
  | .reset x => Sys2Proof.Machine.execReset x s

end Sys2Proof.Machine
end

