-- ==== Sys2Proof/Machine/Fetch.lean ====
section
/-! DEFINITION. Machine/Fetch.lean: where the next transaction comes from, and how the host puts one there (assumption 1). -/

namespace Sys2Proof.Machine

/-- What a step finds to do. -/
inductive Fetched where
  /-- no transaction has arrived: the block "is idle and holds its state" (60_exceptions.md R178, R191) -/
  | idle
  /-- the oldest command is no transaction (30_encoding.md R89; assumption 6) -/
  | rejected (r : Refusal)
  /-- the oldest command's transaction, and the state it is performed in, which no longer holds the command -/
  | run (i : Instr) (s : State)

/-- The refusal of a command that is no transaction. -/
def rejectedAs : CommandReject → Refusal
  | .unassignedOp => .unassignedOp
  | .payloadLength => .payloadLength

/-- Take the oldest command (R59: the order of issue). -/
def fetch (s : State) : Fetched :=
  match s.pending with
  | [] => .idle
  | c :: q =>
    match decodeCommand c with
    | .ok i => .run i (s.withPending q)
    | .error r => .rejected (rejectedAs r)

/-- The command of `NEXT` (30_encoding.md R88). -/
def nextCmd : HostCmd := ⟨commandWord 3 0, []⟩

/-- Put a command before the pending ones. -/
def State.issueFirst (s : State) (c : HostCmd) : State := s.withPending (c :: s.pending)

/-- Put the bytes of a unit at the cursor, as the last bytes of the buffer. -/
def State.placeUnit (s : State) (bytes : List Byte) : State :=
  (s.withIbuf (Memory.writeFrom s.ibuf s.pos bytes)).withEnd (s.pos + bytes.length)

/-- Put an encoding where the next step runs it: a command first in the queue; a unit at the cursor with a `NEXT` first in
the queue, since a unit runs only inside `NEXT` (41_decoder.md R110). -/
def State.placeEncoded (s : State) : Encoded → State
  | .command c => s.issueFirst c
  | .unit bytes => (s.placeUnit bytes).issueFirst nextCmd

end Sys2Proof.Machine
end

