-- ==== Sys2Proof/Machine/Step.lean ====
section
/-! DEFINITION. Machine/Step.lean: one step is one transaction (00_scope.md R9), the oldest the host has issued. -/

namespace Sys2Proof.Machine

/-- One step. -/
def step (s : State) : Host.Outcome State Fault Refusal :=
  match fetch s with
  | .idle => .next s
  | .rejected r => .refused r
  | .run i t => exec i t

/-- The state in which the very next step runs the instruction of a table word (assumption 8). -/
def State.withFetchWord (s : State) (nbits w : Nat) : State := s.placeEncoded (tableEncoded nbits w)

end Sys2Proof.Machine
end

