-- ==== Sys2Proof/WellFormed.lean ====
section
/-! DEFINITION. WellFormed.lean: which terms of Instr stand for something the hardware can meet. -/

namespace Sys2Proof

/-- The bytes at the continuation positions of a form with `n` of them: at most `n`, and every byte before the last one
marked, since the decoder reads no position after an unmarked one (41_decoder.md R118). -/
def contsWellFormed : Nat → List Byte → Bool
  | _, [] => true
  | 0, _ :: _ => false
  | n + 1, b :: ks => if marked b then contsWellFormed n ks else ks.isEmpty

/-- Well-formedness of an instruction: a multi-byte form holds what the decoder reads at its continuation positions, and
the length of `SETBUF`'s bytes fits the 32-bit `arg` (30_encoding.md R88). -/
def wellFormed : Instr → Bool
  | .u1 _ => true
  | .u2 _ ks => contsWellFormed 1 ks
  | .u3 _ ks => contsWellFormed 2 ks
  | .u4 _ ks => contsWellFormed 3 ks
  | .ileadCont _ => true
  | .ileadF8 _ => true
  | .setbuf bytes => decide (bytes.length ≤ Config.bufCapMax)
  | .seek _ => true
  | .next _ => true
  | .decode _ => true
  | .encode _ => true
  | .reset _ => true

abbrev WellFormed (i : Instr) : Prop := wellFormed i = true

end Sys2Proof
end

