-- ==== Sys2Proof/Safety.lean ====
section
/-! DEFINITION. Safety.lean: the terms claims are stated in: scalar values and well-formed units by the spec's own tables,
written with numbers and independently of the machine; the states of a run; the results of the source's functions. -/

namespace Sys2Proof.Machine

/-! ## The byte stream, by the spec's tables -/

/-- A scalar value: a codepoint in `0..0xD7FF` or `0xE000..0x10FFFF` (90_conflicts.md C5). -/
abbrev IsScalar (cp : Codepoint) : Prop := cp.toNat ≤ 0xD7FF ∨ (0xE000 ≤ cp.toNat ∧ cp.toNat ≤ 0x10FFFF)

/-- The minimal UTF-8 length of a scalar value (41_decoder.md R125). -/
def minimalLength (cp : Codepoint) : Nat :=
  if cp.toNat ≤ 0x7F then 1 else if cp.toNat ≤ 0x7FF then 2 else if cp.toNat ≤ 0xFFFF then 3 else 4

/-- A continuation byte: `0x80..0xBF` (30_encoding.md R75). -/
abbrev IsCont (b : Byte) : Prop := 0x80 ≤ b.toNat ∧ b.toNat ≤ 0xBF

/-- A lead byte that no form has: `0x80..0xBF` or `0xF8..0xFF` (30_encoding.md R81). -/
abbrev IsInvalidLead (b : Byte) : Prop := (0x80 ≤ b.toNat ∧ b.toNat ≤ 0xBF) ∨ 0xF8 ≤ b.toNat

/-- The lead of a multi-byte form of length `len` (30_encoding.md R76). -/
abbrev IsLeadOf (len : Nat) (b : Byte) : Prop :=
  (len = 2 ∧ 0xC0 ≤ b.toNat ∧ b.toNat ≤ 0xDF) ∨ (len = 3 ∧ 0xE0 ≤ b.toNat ∧ b.toNat ≤ 0xEF) ∨
  (len = 4 ∧ 0xF0 ≤ b.toNat ∧ b.toNat ≤ 0xF7)

/-- A unit of length 2 to 4 whose every continuation byte is present and marked (the premise of R83 to R85). -/
abbrev IsMarkedUnit (bs : List Byte) : Prop :=
  match bs with
  | [] => False
  | b0 :: ks => IsLeadOf (ks.length + 1) b0 ∧ ∀ k ∈ ks, IsCont k

/-- The rows of the well-formed units (30_encoding.md R86): for each byte of the unit its range, and the range of the values. -/
def wellFormedRows : List (List (Nat × Nat) × (Nat × Nat)) :=
  [ ([(0x00, 0x7F)], (0x0000, 0x007F)),
    ([(0xC2, 0xDF), (0x80, 0xBF)], (0x0080, 0x07FF)),
    ([(0xE0, 0xE0), (0xA0, 0xBF), (0x80, 0xBF)], (0x0800, 0x0FFF)),
    ([(0xE1, 0xEC), (0x80, 0xBF), (0x80, 0xBF)], (0x1000, 0xCFFF)),
    ([(0xED, 0xED), (0x80, 0x9F), (0x80, 0xBF)], (0xD000, 0xD7FF)),
    ([(0xEE, 0xEF), (0x80, 0xBF), (0x80, 0xBF)], (0xE000, 0xFFFF)),
    ([(0xF0, 0xF0), (0x90, 0xBF), (0x80, 0xBF), (0x80, 0xBF)], (0x10000, 0x3FFFF)),
    ([(0xF1, 0xF3), (0x80, 0xBF), (0x80, 0xBF), (0x80, 0xBF)], (0x40000, 0xFFFFF)),
    ([(0xF4, 0xF4), (0x80, 0x8F), (0x80, 0xBF), (0x80, 0xBF)], (0x100000, 0x10FFFF)) ]

/-- The bytes lie in the ranges of a row, one each. -/
def inRanges : List Byte → List (Nat × Nat) → Bool
  | [], [] => true
  | b :: bs, r :: rs => decide (r.1 ≤ b.toNat ∧ b.toNat ≤ r.2) && inRanges bs rs
  | _, _ => false

/-- A well-formed unit: it matches a row of R86. -/
def isWellFormedUnit (bs : List Byte) : Bool := wellFormedRows.any fun r => inRanges bs r.1

abbrev WellFormedUnit (bs : List Byte) : Prop := isWellFormedUnit bs = true

/-- The value a unit of each form carries (30_encoding.md R70, R77), as a number: each continuation byte has weight 64,
most significant first (R50; the OR of R77 is the arithmetic sum, R80). -/
def unitNumber : List Byte → Nat
  | [b0] => b0.toNat
  | [b0, b1] => b0.toNat % 32 * 64 + b1.toNat % 64
  | [b0, b1, b2] => b0.toNat % 16 * 4096 + b1.toNat % 64 * 64 + b2.toNat % 64
  | [b0, b1, b2, b3] => b0.toNat % 8 * 262144 + b1.toNat % 64 * 4096 + b2.toNat % 64 * 64 + b3.toNat % 64
  | _ => 0

/-- The value of a unit as a codepoint. -/
def unitCodepoint (bs : List Byte) : Codepoint := BitVec.ofNat 32 (unitNumber bs)

/-! ## States after a transaction, written out register by register -/

/-- Full success of a unit of length `len` with value `v` (41_decoder.md R110 step 8). -/
abbrev afterValue (s : State) (v len : Nat) : State :=
  { s with dStatus := .value, dCp := BitVec.ofNat 32 v, dNcons := BitVec.ofNat 3 len, pos := s.pos + len }

/-- The failure completion (60_exceptions.md R166): only the three result registers are written. -/
abbrev afterError (s : State) (k : ErrorKind) : State := { s with dStatus := .error k, dCp := 0, dNcons := 0 }

/-- The end of the buffer (41_decoder.md R111). -/
abbrev afterEnd (s : State) : State := { s with dStatus := .endOfInput, dCp := 0, dNcons := 0 }

/-! ## What the buffer holds -/

/-- The valid bytes of the buffer are `bs` (10_state.md R22), and the buffer fits its memory. -/
abbrev BufferHolds (s : State) (bs : List Byte) : Prop := bufferBytes s = bs.map some ∧ s.endPos ≤ s.bufCap

/-- The cursor lies in the buffer and the bytes from it to the end boundary are `bs`. -/
abbrev CursorHolds (s : State) (bs : List Byte) : Prop :=
  s.pos ≤ s.endPos ∧ s.endPos ≤ s.bufCap ∧ (bufferBytes s).drop s.pos = bs.map some

/-- A transaction ends with the given `D_STATUS`. -/
abbrev EndsWith (r : Result) (st : DStatus) : Prop := ∃ t, r = .next t ∧ t.dStatus = st

/-! ## Safe runs -/

/-- The decoder's result registers as 10_state.md R39 says they always are. -/
abbrev DecoderResultInv (s : State) : Prop :=
  (s.dStatus = .value ∧ 1 ≤ s.dNcons.toNat ∧ s.dNcons.toNat ≤ 4 ∧ IsScalar s.dCp ∧
    minimalLength s.dCp = s.dNcons.toNat) ∨
  (s.dStatus ≠ .value ∧ s.dCp = 0 ∧ s.dNcons = 0)

/-- The encoder's registers as 10_state.md R40 says they always are. -/
abbrev EncoderResultInv (s : State) : Prop :=
  (s.eStatus = .ok ∧ 1 ≤ s.eLen.toNat ∧ s.eLen.toNat ≤ 4 ∧ WellFormedUnit (encodedBytes s) ∧
    ∀ b ∈ s.eB.toList.drop s.eLen.toNat, b = 0) ∨
  (s.eStatus ≠ .ok ∧ s.eLen = 0 ∧ s.eB = ⟨0, 0, 0, 0⟩)

/-- The invariant of every run from reset: the capacity is one the parameter admits (00_scope.md R4; 30_encoding.md R88),
`POS <= END <= BUF_CAP` and `OCNT <= END` (10_state.md R24), the memories keep their canonical form and lie within their
index ranges (20_memory.md R51), every valid entry holds a value (R53), and the result registers are as R39 and R40 say. -/
structure Inv (s : State) : Prop where
  capPos : 1 ≤ s.bufCap
  capMax : s.bufCap ≤ Config.bufCapMax
  posLe : s.pos ≤ s.endPos
  endLe : s.endPos ≤ s.bufCap
  ocntLe : s.ocnt ≤ s.endPos
  ibufWf : Memory.wf s.ibuf
  obufWf : Memory.wf s.obuf
  ibufRange : ∀ e ∈ s.ibuf, e.1 < s.bufCap
  obufRange : ∀ e ∈ s.obuf, e.1 < s.bufCap
  ibufValid : ∀ a, a < s.endPos → (hostReadIbuf s a).isSome
  obufValid : ∀ k, k < s.ocnt → (hostReadObuf s k).isSome
  decoder : DecoderResultInv s
  encoder : EncoderResultInv s

/-! ## The source's functions, as the host runs them -/

/-- `encode(cp)` (30_encoding.md R91): the bytes the host takes after `ENCODE cp`, `none` for the failure. -/
def hostEncode (s : State) (cp : Codepoint) : Option (List Byte) :=
  match exec (.encode cp) s with
  | .next t => if t.eStatus = .ok then some (encodedBytes t) else none
  | _ => none

/-- A decode call driven from the host (40_buffer_and_cursor.md R102): `NEXT` until the first status that is not `VALUE`, at
most `n` times, the host collecting `D_CP` after each `VALUE`. -/
def hostDecode : Nat → State → Option (List Codepoint × State)
  | 0, _ => none
  | n + 1, s =>
    match exec (.next 0) s with
    | .next t =>
      if t.dStatus = .value then
        match hostDecode n t with
        | some (cs, u) => some (t.dCp :: cs, u)
        | none => none
      else some ([], t)
    | _ => none

/-- Perform transactions one after another (70_reset_and_hazards.md R203), stopping at the first that does not complete. -/
def runAll : List Instr → State → Result
  | [], s => .next s
  | i :: is, s =>
    match exec i s with
    | .next t => runAll is t
    | .fault f => .fault f
    | .refused r => .refused r

/-- The part of the state that is `DEC`'s (10_state.md R20), and the part that is `ENC`'s. -/
abbrev SameDecoder (s t : State) : Prop :=
  s.ibuf = t.ibuf ∧ s.endPos = t.endPos ∧ s.pos = t.pos ∧ s.dStatus = t.dStatus ∧ s.dCp = t.dCp ∧ s.dNcons = t.dNcons ∧
  s.obuf = t.obuf ∧ s.ocnt = t.ocnt

abbrev SameEncoder (s t : State) : Prop := s.eStatus = t.eStatus ∧ s.eLen = t.eLen ∧ s.eB = t.eB

end Sys2Proof.Machine
end

