-- ==== Sys2Proof/Certificates/Slice0/Obligations.lean ====
section
/-! DEFINITION. Certificates/Slice0/Obligations.lean: the statements for the provers, from the numbered rules of spec/. Where a
statement says "the buffer is readable" it means `BufferHolds` or `CursorHolds`: every valid byte holds a value (true in
every state `Inv` admits). -/

open Sys2Proof Sys2Proof.Machine

/-! ## Encodings -/

/-- Decoding an encoded well-formed instruction gives it back, every operand at every value (30_encoding.md R70 to R76, R88). -/
def Obligations.DecodeOfEncodeGivesInstructionBack : Prop :=
  ∀ i : Instr, WellFormed i → decode (encode i) = .ok i

/-- A command that decodes is well-formed and encodes to the very same word and payload (R88). -/
def Obligations.CommandWordHasOneMeaning : Prop :=
  ∀ (c : HostCmd) (i : Instr), decodeCommand c = .ok i → WellFormed i ∧ encode i = .command c

/-- The unit a byte string begins with is well-formed, and its encoding is a prefix of the string (R76, R118). -/
def Obligations.UnitEncodingIsPrefixOfBytes : Prop :=
  ∀ (bs : List Byte) (u : UnitForm), decodeUnit bs = some u →
    WellFormed u.toInstr ∧ ∃ us rest, encode u.toInstr = .unit us ∧ us ≠ [] ∧ bs = us ++ rest

/-- Words written out from the spec's encodings decode to the instructions they stand for (95_test_vectors.md). -/
def Obligations.WrittenOutWordsDecode : Prop :=
  decodeTableWord 8 0b01000001 = some (.u1 0b1000001#7) ∧
  decodeTableWord 16 0b1100001010100010 = some (.u2 0b00010#5 [0b10100010#8]) ∧
  decodeTableWord 24 0b111000101000001010101100 = some (.u3 0b0010#4 [0b10000010#8, 0b10101100#8]) ∧
  decodeTableWord 32 0b11110000100100001000110110001000 =
    some (.u4 0b000#3 [0b10010000#8, 0b10001101#8, 0b10001000#8]) ∧
  decodeTableWord 8 0b10000010 = some (.ileadCont 0b000010#6) ∧
  decodeTableWord 8 0b11111000 = some (.ileadF8 0b000#3) ∧
  decodeTableWord 40 0x100000000 = some (.setbuf []) ∧
  decodeTableWord 40 0x200000005 = some (.seek 5) ∧
  decodeTableWord 40 0x300000000 = some (.next 0) ∧
  decodeTableWord 40 0x400000000 = some (.decode 0) ∧
  decodeTableWord 40 0x5000020AC = some (.encode 0x20AC) ∧
  decodeTableWord 40 0x700000000 = some (.reset 0) ∧
  decodeTableWord 40 0x000000000 = none ∧ decodeTableWord 40 0x612345678 = none

/-- The lead byte alone tells the form and its length, whatever follows it, for all 256 values (R76): a form of length `L`
reads fewer than `L` bytes after its lead. -/
def Obligations.LeadByteAloneTellsTheForm : Prop :=
  ∀ (b0 : Byte) (rest : List Byte),
    (b0.toNat ≤ 0x7F → decodeUnit (b0 :: rest) = some (.u1 (b0.setWidth 7))) ∧
    (0x80 ≤ b0.toNat ∧ b0.toNat ≤ 0xBF → decodeUnit (b0 :: rest) = some (.ileadCont (b0.setWidth 6))) ∧
    (0xC0 ≤ b0.toNat ∧ b0.toNat ≤ 0xDF →
      ∃ ks, decodeUnit (b0 :: rest) = some (.u2 (b0.setWidth 5) ks) ∧ ks.length < 2) ∧
    (0xE0 ≤ b0.toNat ∧ b0.toNat ≤ 0xEF →
      ∃ ks, decodeUnit (b0 :: rest) = some (.u3 (b0.setWidth 4) ks) ∧ ks.length < 3) ∧
    (0xF0 ≤ b0.toNat ∧ b0.toNat ≤ 0xF7 →
      ∃ ks, decodeUnit (b0 :: rest) = some (.u4 (b0.setWidth 3) ks) ∧ ks.length < 4) ∧
    (0xF8 ≤ b0.toNat → decodeUnit (b0 :: rest) = some (.ileadF8 (b0.setWidth 3)))

/-- The command codes (R88): the six transactions with every value of `arg`, and for `SETBUF` every payload of `arg` bytes;
the two unassigned codes are refused, whatever `arg` and payload hold (R89). -/
def Obligations.CommandCodesSelectTransactions : Prop :=
  (∀ bytes : List Byte, bytes.length < 2 ^ 32 →
    decodeCommand ⟨0b001#3 ++ BitVec.ofNat 32 bytes.length, bytes⟩ = .ok (.setbuf bytes)) ∧
  (∀ x : BitVec 32,
    decodeCommand ⟨0b010#3 ++ x, []⟩ = .ok (.seek x) ∧ decodeCommand ⟨0b011#3 ++ x, []⟩ = .ok (.next x) ∧
    decodeCommand ⟨0b100#3 ++ x, []⟩ = .ok (.decode x) ∧ decodeCommand ⟨0b101#3 ++ x, []⟩ = .ok (.encode x) ∧
    decodeCommand ⟨0b111#3 ++ x, []⟩ = .ok (.reset x)) ∧
  ∀ (s : State) (x : BitVec 32) (bytes : List Byte) (q : List HostCmd),
    (s.pending = ⟨0b000#3 ++ x, bytes⟩ :: q ∨ s.pending = ⟨0b110#3 ++ x, bytes⟩ :: q) → step s = .refused .unassignedOp

/-! ## The step -/

/-- A step performs the oldest pending command's instruction, in the state that no longer holds the command. -/
def Obligations.StepRunsDecodedCommand : Prop :=
  ∀ (s : State) (c : HostCmd) (q : List HostCmd) (i : Instr), s.pending = c :: q → decodeCommand c = .ok i →
    step s = exec i { s with pending := q }

/-- `NEXT` runs the unit at the cursor: where the bytes from the cursor to the end boundary decode to a unit, `NEXT` is that
unit's own instruction (R110). -/
def Obligations.NextRunsUnitAtCursor : Prop :=
  ∀ (s : State) (x : BitVec 32) (bs : List Byte) (u : UnitForm), CursorHolds s bs → decodeUnit bs = some u →
    exec (.next x) s = exec u.toInstr s

/-- With no transaction pending a step holds the state (R178, R191). -/
def Obligations.IdleStepHoldsState : Prop := ∀ s : State, s.pending = [] → step s = .next s

/-- A table word placed by `withFetchWord` is what the very next step runs; a unit needs room in the buffer. -/
def Obligations.StepRunsPlacedTableWord : Prop :=
  ∀ (s : State) (nbits w : Nat) (i : Instr), decodeTableWord nbits w = some i →
    (nbits ≤ 32 → s.pos + (nbits + 7) / 8 ≤ s.bufCap) →
    step (s.withFetchWord nbits w) = exec i { s.withFetchWord nbits w with pending := s.pending }

/-- The step is refused exactly for the list of R172 (`Refusal.payloadLength` is the model's own, assumption 6). -/
def Obligations.StepRefusesExactlyTheListed : Prop :=
  ∀ (s : State) (r : Refusal), step s = .refused r ↔
    ∃ c q, s.pending = c :: q ∧
      ((r = .unassignedOp ∧ (c.op = 0 ∨ c.op = 6)) ∨
       (r = .payloadLength ∧ c.op ≠ 0 ∧ c.op ≠ 6 ∧ c.payload.length ≠ if c.op = 1 then c.arg.toNat else 0) ∨
       (r = .setbufTooLong ∧ c.op = 1 ∧ c.payload.length = c.arg.toNat ∧ s.bufCap < c.payload.length) ∨
       (r = .seekBeyondEnd ∧ c.op = 2 ∧ c.payload = [] ∧ s.endPos < c.arg.toNat))

/-! ## The unit classes -/

/-- Class `U1` (R112). -/
def Obligations.U1ReturnsItsByte : Prop :=
  (∀ (v : BitVec 7) (s : State), exec (.u1 v) s = .next (afterValue s v.toNat 1)) ∧
  ∀ (s : State) (x : BitVec 32) (b0 : Byte) (rest : List Byte), CursorHolds s (b0 :: rest) → b0.toNat ≤ 0x7F →
    exec (.next x) s = .next (afterValue s b0.toNat 1)

/-- Class `U2` (R113): as an instruction and at the cursor, the four outcomes in order. -/
def Obligations.U2FollowsItsRule : Prop :=
  (∀ (a : BitVec 5) (s : State), exec (.u2 a []) s = .next (afterError s .truncated)) ∧
  (∀ (a : BitVec 5) (b1 : Byte) (ks : List Byte) (s : State), ¬ IsCont b1 →
    exec (.u2 a (b1 :: ks)) s = .next (afterError s .invalidContinuationByte)) ∧
  (∀ (a : BitVec 5) (b1 : Byte) (ks : List Byte) (s : State), IsCont b1 →
    exec (.u2 a (b1 :: ks)) s =
      .next (if a.toNat * 64 + b1.toNat % 64 < 0x80 then afterError s .overlongEncoding
        else afterValue s (a.toNat * 64 + b1.toNat % 64) 2)) ∧
  ∀ (s : State) (x : BitVec 32) (b0 : Byte) (rest : List Byte), CursorHolds s (b0 :: rest) →
    0xC0 ≤ b0.toNat ∧ b0.toNat ≤ 0xDF →
    exec (.next x) s =
      match rest with
      | [] => .next (afterError s .truncated)
      | b1 :: _ =>
        if IsCont b1 then
          if b0.toNat ≤ 0xC1 then .next (afterError s .overlongEncoding)
          else .next (afterValue s (b0.toNat % 32 * 64 + b1.toNat % 64) 2)
        else .next (afterError s .invalidContinuationByte)

/-- Class `U3` (R114): as an instruction and at the cursor, the outcomes in order. -/
def Obligations.U3FollowsItsRule : Prop :=
  (∀ (a : BitVec 4) (ks : List Byte) (s : State),
    exec (.u3 a ks) s =
      match ks with
      | [] => .next (afterError s .truncated)
      | b1 :: ks' =>
        if ¬ IsCont b1 then .next (afterError s .invalidContinuationByte)
        else
          match ks' with
          | [] => .next (afterError s .truncated)
          | b2 :: _ =>
            if ¬ IsCont b2 then .next (afterError s .invalidContinuationByte)
            else
              let v := a.toNat * 4096 + b1.toNat % 64 * 64 + b2.toNat % 64
              if v < 0x800 then .next (afterError s .overlongEncoding)
              else if 0xD800 ≤ v ∧ v ≤ 0xDFFF then .next (afterError s .surrogateCodepoint)
              else .next (afterValue s v 3)) ∧
  ∀ (s : State) (x : BitVec 32) (b0 : Byte) (rest : List Byte), CursorHolds s (b0 :: rest) →
    0xE0 ≤ b0.toNat ∧ b0.toNat ≤ 0xEF →
    exec (.next x) s =
      match rest with
      | [] => .next (afterError s .truncated)
      | b1 :: rest' =>
        if ¬ IsCont b1 then .next (afterError s .invalidContinuationByte)
        else
          match rest' with
          | [] => .next (afterError s .truncated)
          | b2 :: _ =>
            if ¬ IsCont b2 then .next (afterError s .invalidContinuationByte)
            else if b0.toNat = 0xE0 ∧ b1.toNat < 0xA0 then .next (afterError s .overlongEncoding)
            else if b0.toNat = 0xED ∧ 0xA0 ≤ b1.toNat then .next (afterError s .surrogateCodepoint)
            else .next (afterValue s (b0.toNat % 16 * 4096 + b1.toNat % 64 * 64 + b2.toNat % 64) 3)

/-- Class `U4` (R115): as an instruction, on the value, and at the cursor, on the bytes; the outcomes in order. -/
def Obligations.U4FollowsItsRule : Prop :=
  (∀ (a : BitVec 3) (ks : List Byte) (s : State),
    exec (.u4 a ks) s =
      match ks with
      | b1 :: b2 :: b3 :: _ =>
        if IsCont b1 ∧ IsCont b2 ∧ IsCont b3 then
          let v := a.toNat * 262144 + b1.toNat % 64 * 4096 + b2.toNat % 64 * 64 + b3.toNat % 64
          if v < 0x10000 then .next (afterError s .overlongEncoding)
          else if 0x10FFFF < v then .next (afterError s .outOfRangeCodepoint)
          else .next (afterValue s v 4)
        else .next (afterError s .invalidContinuationByte)
      | _ =>
        if ∀ k ∈ ks, IsCont k then .next (afterError s .truncated)
        else .next (afterError s .invalidContinuationByte)) ∧
  ∀ (s : State) (x : BitVec 32) (b0 : Byte) (rest : List Byte), CursorHolds s (b0 :: rest) →
    0xF0 ≤ b0.toNat ∧ b0.toNat ≤ 0xF7 →
    exec (.next x) s =
      match rest with
      | b1 :: b2 :: b3 :: _ =>
        if IsCont b1 ∧ IsCont b2 ∧ IsCont b3 then
          if b0.toNat = 0xF0 ∧ b1.toNat < 0x90 then .next (afterError s .overlongEncoding)
          else if (b0.toNat = 0xF4 ∧ 0x90 ≤ b1.toNat) ∨ 0xF5 ≤ b0.toNat then
            .next (afterError s .outOfRangeCodepoint)
          else
            .next (afterValue s
              (b0.toNat % 8 * 262144 + b1.toNat % 64 * 4096 + b2.toNat % 64 * 64 + b3.toNat % 64) 4)
        else .next (afterError s .invalidContinuationByte)
      | _ =>
        if ∀ k ∈ rest, IsCont k then .next (afterError s .truncated)
        else .next (afterError s .invalidContinuationByte)

/-- Classes `ILEAD.CONT` and `ILEAD.F8` (R116), whatever follows the byte. -/
def Obligations.InvalidLeadsReportInvalidLeadByte : Prop :=
  (∀ (x : BitVec 6) (s : State), exec (.ileadCont x) s = .next (afterError s .invalidLeadByte)) ∧
  (∀ (x : BitVec 3) (s : State), exec (.ileadF8 x) s = .next (afterError s .invalidLeadByte)) ∧
  ∀ (s : State) (x : BitVec 32) (b0 : Byte) (rest : List Byte), CursorHolds s (b0 :: rest) → IsInvalidLead b0 →
    exec (.next x) s = .next (afterError s .invalidLeadByte)

/-! ## NEXT -/

/-- `NEXT` at the end of the buffer; `END_OF_INPUT` only there, and distinct from `TRUNCATED` by its code (R111). -/
def Obligations.NextReportsEndOnlyAtEnd : Prop :=
  (∀ (s : State) (x : BitVec 32), s.pos = s.endPos → exec (.next x) s = .next (afterEnd s)) ∧
  (∀ (s t : State) (x : BitVec 32), exec (.next x) s = .next t → t.dStatus = .endOfInput → s.pos = s.endPos) ∧
  DStatus.endOfInput.code = 2 ∧ (DStatus.error .truncated).code = 3

/-- `NEXT` is total and deterministic (R92): on readable bytes it completes with exactly one status of codes 1 to 8, and what it
writes depends on `POS`, `END` and the window `IBUF[POS .. min(POS+3, END-1)]` alone. -/
def Obligations.NextIsTotalAndReadsItsWindowOnly : Prop :=
  (∀ (s : State) (x : BitVec 32) (bs : List Byte), CursorHolds s bs →
    ∃ t, exec (.next x) s = .next t ∧ 1 ≤ t.dStatus.code.toNat ∧ t.dStatus.code.toNat ≤ 8) ∧
  ∀ (s s' t t' : State) (x x' : BitVec 32), s.endPos ≤ s.bufCap → s'.endPos ≤ s'.bufCap →
    s.pos = s'.pos → s.endPos = s'.endPos →
    (∀ k, k < 4 → s.pos + k < s.endPos → hostReadIbuf s (s.pos + k) = hostReadIbuf s' (s.pos + k)) →
    exec (.next x) s = .next t → exec (.next x') s' = .next t' →
    t.dStatus = t'.dStatus ∧ t.dCp = t'.dCp ∧ t.dNcons = t'.dNcons ∧ t.pos = t'.pos

/-- When `TRUNCATED` is reported, exactly (R117). The left side is the whole failure completion of R166. -/
def Obligations.TruncatedExactlyWhen : Prop :=
  ∀ (s : State) (x : BitVec 32) (bs : List Byte), CursorHolds s bs →
    (exec (.next x) s = .next (afterError s .truncated) ↔
      ∃ b0 ks len, bs = b0 :: ks ∧ IsLeadOf len b0 ∧ bs.length < len ∧ ∀ k ∈ ks, IsCont k)

/-- When `INVALID_CONTINUATION_BYTE` is reported, exactly (R118). -/
def Obligations.InvalidContinuationExactlyWhen : Prop :=
  ∀ (s : State) (x : BitVec 32) (bs : List Byte), CursorHolds s bs →
    (exec (.next x) s = .next (afterError s .invalidContinuationByte) ↔
      ∃ b0 ks b rest len, bs = b0 :: ks ++ b :: rest ∧ IsLeadOf len b0 ∧ ks.length + 1 < len ∧
        (∀ k ∈ ks, IsCont k) ∧ ¬ IsCont b)

/-- When `INVALID_LEAD_BYTE` is reported, exactly (R81). -/
def Obligations.InvalidLeadExactlyWhen : Prop :=
  ∀ (s : State) (x : BitVec 32) (bs : List Byte), CursorHolds s bs →
    (exec (.next x) s = .next (afterError s .invalidLeadByte) ↔ ∃ b0 rest, bs = b0 :: rest ∧ IsInvalidLead b0)

/-- When `OVERLONG_ENCODING` is reported, exactly: a complete marked unit below the minimum of its form (R83), on the value and
on the bytes. -/
def Obligations.OverlongExactlyWhen : Prop :=
  (∀ (s : State) (x : BitVec 32) (bs : List Byte), CursorHolds s bs →
    (exec (.next x) s = .next (afterError s .overlongEncoding) ↔
      ∃ us rest, bs = us ++ rest ∧ IsMarkedUnit us ∧
        ((us.length = 2 ∧ unitNumber us < 0x80) ∨ (us.length = 3 ∧ unitNumber us < 0x800) ∨
          (us.length = 4 ∧ unitNumber us < 0x10000)))) ∧
  (∀ b0 b1 : Byte, IsMarkedUnit [b0, b1] →
    (unitNumber [b0, b1] < 0x80 ↔ b0.toNat = 0xC0 ∨ b0.toNat = 0xC1)) ∧
  (∀ b0 b1 b2 : Byte, IsMarkedUnit [b0, b1, b2] →
    (unitNumber [b0, b1, b2] < 0x800 ↔ b0.toNat = 0xE0 ∧ b1.toNat < 0xA0)) ∧
  ∀ b0 b1 b2 b3 : Byte, IsMarkedUnit [b0, b1, b2, b3] →
    (unitNumber [b0, b1, b2, b3] < 0x10000 ↔ b0.toNat = 0xF0 ∧ b1.toNat < 0x90)

/-- When `SURROGATE_CODEPOINT` and `OUT_OF_RANGE_CODEPOINT` are reported, exactly (R84, R85), on the value and on the bytes. -/
def Obligations.SurrogateAndOutOfRangeExactlyWhen : Prop :=
  (∀ (s : State) (x : BitVec 32) (bs : List Byte), CursorHolds s bs →
    (exec (.next x) s = .next (afterError s .surrogateCodepoint) ↔
      ∃ us rest, bs = us ++ rest ∧ IsMarkedUnit us ∧ us.length = 3 ∧
        0xD800 ≤ unitNumber us ∧ unitNumber us ≤ 0xDFFF) ∧
    (exec (.next x) s = .next (afterError s .outOfRangeCodepoint) ↔
      ∃ us rest, bs = us ++ rest ∧ IsMarkedUnit us ∧ us.length = 4 ∧ 0x10FFFF < unitNumber us)) ∧
  (∀ b0 b1 b2 : Byte, IsMarkedUnit [b0, b1, b2] →
    (0xD800 ≤ unitNumber [b0, b1, b2] ∧ unitNumber [b0, b1, b2] ≤ 0xDFFF ↔ b0.toNat = 0xED ∧ 0xA0 ≤ b1.toNat)) ∧
  (∀ b0 b1 b2 b3 : Byte, IsMarkedUnit [b0, b1, b2, b3] →
    (0x10FFFF < unitNumber [b0, b1, b2, b3] ↔ (b0.toNat = 0xF4 ∧ 0x90 ≤ b1.toNat) ∨ 0xF5 ≤ b0.toNat)) ∧
  ∀ us, IsMarkedUnit us →
    (us.length = 2 → unitNumber us < 0xD800) ∧ (us.length ≠ 4 → unitNumber us ≤ 0x10FFFF) ∧
    (us.length = 4 → unitNumber us ≤ 0xDFFF → unitNumber us < 0x10000)

/-- `NEXT` decodes exactly the well-formed units of the byte-range table, each to the value it carries, which lies in the range
of its row (R86, R119); a unit that is marked but matches no row is overlong, a surrogate or out of range. -/
def Obligations.NextDecodesExactlyWellFormedUnits : Prop :=
  (∀ (s : State) (x : BitVec 32) (bs : List Byte), CursorHolds s bs →
    (∀ us rest, bs = us ++ rest → WellFormedUnit us →
      exec (.next x) s = .next (afterValue s (unitNumber us) us.length)) ∧
    (EndsWith (exec (.next x) s) .value → ∃ us rest, bs = us ++ rest ∧ WellFormedUnit us) ∧
    ∀ us rest, bs = us ++ rest → IsMarkedUnit us → ¬ WellFormedUnit us →
      exec (.next x) s = .next (afterError s .overlongEncoding) ∨
      exec (.next x) s = .next (afterError s .surrogateCodepoint) ∨
      exec (.next x) s = .next (afterError s .outOfRangeCodepoint)) ∧
  ∀ r ∈ wellFormedRows, ∀ us, inRanges us r.1 = true → r.2.1 ≤ unitNumber us ∧ unitNumber us ≤ r.2.2

/-- Every `VALUE` is a minimally encoded scalar value, and `ENCODE` gives back the consumed bytes (R125). -/
def Obligations.ValueIsMinimalScalarAndReencodes : Prop :=
  ∀ (s t : State) (x : BitVec 32), exec (.next x) s = .next t → t.dStatus = .value →
    IsScalar t.dCp ∧ t.dNcons.toNat = minimalLength t.dCp ∧
    ∃ us, hostEncode t t.dCp = some us ∧ us.length = t.dNcons.toNat ∧
      ∀ k (h : k < us.length), hostReadIbuf s (s.pos + k) = some us[k]

/-- The failure completion is the whole of what a failing `NEXT` does (R166): the state before it with the three result registers
rewritten. For `DECODE` the same holds at the failing iteration: the cursor stands where `NEXT` fails the same way. -/
def Obligations.FailureCompletionIsPrecise : Prop :=
  (∀ (s t : State) (x : BitVec 32) (k : ErrorKind), exec (.next x) s = .next t → t.dStatus = .error k →
    t = afterError s k) ∧
  ∀ (s t : State) (x : BitVec 32) (k : ErrorKind), exec (.decode x) s = .next t → t.dStatus = .error k →
    t = { s with pos := t.pos, ocnt := t.ocnt, obuf := t.obuf, dStatus := .error k, dCp := 0, dNcons := 0 } ∧
    exec (.next 0) t = .next t

/-- A `NEXT` that ended with any status other than `VALUE` left the cursor and the buffer unchanged, and another `NEXT` gives the
same again, for ever (R56, R170). -/
def Obligations.NextRepeatsNonValueResult : Prop :=
  ∀ (s t : State) (x y : BitVec 32), exec (.next x) s = .next t → t.dStatus ≠ .value →
    t.pos = s.pos ∧ t.ibuf = s.ibuf ∧ t.endPos = s.endPos ∧ exec (.next y) t = .next t

/-- Frame of `NEXT` and the six unit classes: they write `POS`, `D_STATUS`, `D_CP`, `D_NCONS` and nothing else (R110), and
`POS` only with a `VALUE`, by `D_NCONS` (10_state.md R29). -/
def Obligations.NextAndUnitsFrame : Prop :=
  ∀ (i : Instr) (s t : State),
    (∀ bytes, i ≠ .setbuf bytes) → (∀ p, i ≠ .seek p) → (∀ x, i ≠ .decode x) → (∀ cp, i ≠ .encode cp) →
    (∀ x, i ≠ .reset x) → exec i s = .next t →
    t = { s with pos := t.pos, dStatus := t.dStatus, dCp := t.dCp, dNcons := t.dNcons } ∧
    (∀ a, hostReadIbuf t a = hostReadIbuf s a) ∧ (∀ a, hostReadObuf t a = hostReadObuf s a) ∧
    t.pos = s.pos + (if t.dStatus = .value then t.dNcons.toNat else 0)

/-! ## DECODE -/

/-- `DECODE` always ends: `END + 1` iterations suffice in every state (R124). -/
def Obligations.DecodeNeverExceedsItsBound : Prop :=
  ∀ (s : State) (x : BitVec 32), exec (.decode x) s ≠ .fault .loopBound

/-- `DECODE` on a readable buffer completes: it consumes a sequence of well-formed units, `OBUF[0 .. OCNT-1]` holds their
values, and it ends at the end of the buffer or where `NEXT` reports an error kind (R120, R121, R122). -/
def Obligations.DecodeConsumesUnitsUntilFirstFailure : Prop :=
  ∀ (s : State) (x : BitVec 32) (bs : List Byte), BufferHolds s bs →
    ∃ (t : State) (us : List (List Byte)) (rest : List Byte), exec (.decode x) s = .next t ∧ (∀ u ∈ us, WellFormedUnit u) ∧ bs = us.flatten ++ rest ∧
      t.pos = us.flatten.length ∧ t.ocnt = us.length ∧
      decodedSequence t = us.map (fun u => some (unitCodepoint u)) ∧ t.dCp = 0 ∧ t.dNcons = 0 ∧
      ((rest = [] ∧ t.dStatus = .endOfInput) ∨
       (rest ≠ [] ∧ ∃ k, t.dStatus = .error k ∧ EndsWith (exec (.next 0) { s with pos := t.pos }) (.error k)))

/-- `DECODE` succeeds exactly when the buffer is a concatenation of well-formed units, and then gives their values (R121). -/
def Obligations.DecodeSucceedsExactlyOnWellFormed : Prop :=
  ∀ (s : State) (x : BitVec 32) (bs : List Byte), BufferHolds s bs →
    (EndsWith (exec (.decode x) s) .endOfInput ↔ ∃ us : List (List Byte), (∀ u ∈ us, WellFormedUnit u) ∧ bs = us.flatten) ∧
    ∀ us : List (List Byte), (∀ u ∈ us, WellFormedUnit u) → bs = us.flatten →
      ∃ t, exec (.decode x) s = .next t ∧ t.dStatus = .endOfInput ∧ t.pos = t.endPos ∧ t.ocnt = us.length ∧
        decodedSequence t = us.map (fun u => some (unitCodepoint u))

/-- The end state of `DECODE` in what it writes is a function of the valid bytes of the buffer (R123). -/
def Obligations.DecodeDependsOnBufferOnly : Prop :=
  ∀ (s s' : State) (x x' : BitVec 32) (bs : List Byte), BufferHolds s bs → BufferHolds s' bs →
    ∃ t t', exec (.decode x) s = .next t ∧ exec (.decode x') s' = .next t' ∧
      t.dStatus = t'.dStatus ∧ t.pos = t'.pos ∧ t.dCp = t'.dCp ∧ t.dNcons = t'.dNcons ∧ t.ocnt = t'.ocnt ∧
      ∀ k, k < t.ocnt → hostReadObuf t k = hostReadObuf t' k

/-- `DECODE` issued twice in a row gives the same end state twice (R120). -/
def Obligations.DecodeTwiceGivesSameState : Prop :=
  ∀ (s t : State) (x y : BitVec 32), Inv s → exec (.decode x) s = .next t → exec (.decode y) t = .next t

/-- A decode call driven from the host with `NEXT` gives the codepoints, the status and the position of `DECODE` (R102). -/
def Obligations.HostDrivenDecodeAgrees : Prop :=
  ∀ (s : State) (x : BitVec 32) (bytes : List Byte), Inv s → bytes.length ≤ s.bufCap →
    ∃ s1 t cs u, exec (.setbuf bytes) s = .next s1 ∧ exec (.decode x) s1 = .next t ∧
      hostDecode (bytes.length + 1) s1 = some (cs, u) ∧
      decodedSequence t = cs.map some ∧ t.dStatus = u.dStatus ∧ t.pos = u.pos ∧ t.ocnt = cs.length ∧ u.ocnt = 0

/-- Frame of `DECODE`: it writes `POS`, `OCNT`, `OBUF[0 .. OCNT-1]` and the result registers, nothing else (R120, R200). -/
def Obligations.DecodeFrame : Prop :=
  ∀ (s t : State) (x : BitVec 32), exec (.decode x) s = .next t →
    t = { s with pos := t.pos, ocnt := t.ocnt, obuf := t.obuf, dStatus := t.dStatus, dCp := t.dCp,
                 dNcons := t.dNcons } ∧
    (∀ a, hostReadIbuf t a = hostReadIbuf s a) ∧
    ∀ k, t.ocnt ≤ k → hostReadObuf t k = hostReadObuf s k

/-- If `DECODE` succeeds, the encodings of the decoded codepoints are byte for byte the buffer (R126). -/
def Obligations.DecodedSequenceReencodesToBuffer : Prop :=
  ∀ (s t : State) (x : BitVec 32) (bs : List Byte), BufferHolds s bs → exec (.decode x) s = .next t →
    t.dStatus = .endOfInput →
    ∃ (cs : List Codepoint) (us : List (List Byte)), decodedSequence t = cs.map some ∧
      cs.map (hostEncode t) = us.map some ∧ us.flatten = bs

/-- The prefix law (R127), in transactions: `SETBUF` and `DECODE` of `a`, of `b` and of `a ++ b`. -/
def Obligations.DecodePrefixLaw : Prop :=
  ∀ (s : State) (a b : List Byte) (ta tb : State), Inv s → (a ++ b).length ≤ s.bufCap →
    runAll [.setbuf a, .decode 0] s = .next ta → ta.dStatus = .endOfInput →
    runAll [.setbuf b, .decode 0] s = .next tb →
    ∃ t, runAll [.setbuf (a ++ b), .decode 0] s = .next t ∧ t.dStatus = tb.dStatus ∧
      t.pos = a.length + tb.pos ∧ t.ocnt = ta.ocnt + tb.ocnt ∧
      decodedSequence t = decodedSequence ta ++ decodedSequence tb

/-! ## ENCODE -/

/-- The invalid codepoints (R141): above `0x10FFFF` or in the surrogate band, before any range is chosen. -/
def Obligations.EncodeRejectsInvalidCodepoints : Prop :=
  ∀ (cp : Codepoint) (s : State), 0x10FFFF < cp.toNat ∨ (0xD800 ≤ cp.toNat ∧ cp.toNat ≤ 0xDFFF) →
    exec (.encode cp) s = .next { s with eStatus := .invalidCodepoint, eLen := 0, eB := ⟨0, 0, 0, 0⟩ }

/-- The 1-byte and the 2-byte arm (R142, R143). -/
def Obligations.EncodeOneAndTwoByteArms : Prop :=
  ∀ (cp : Codepoint) (s : State),
    (cp.toNat ≤ 0x7F →
      exec (.encode cp) s =
        .next { s with eStatus := .ok, eLen := 1, eB := ⟨BitVec.ofNat 8 cp.toNat, 0, 0, 0⟩ }) ∧
    (0x80 ≤ cp.toNat ∧ cp.toNat ≤ 0x7FF →
      exec (.encode cp) s =
        .next { s with eStatus := .ok, eLen := 2,
                       eB := ⟨BitVec.ofNat 8 (0xC0 + cp.toNat / 64), BitVec.ofNat 8 (0x80 + cp.toNat % 64), 0, 0⟩ })

/-- The 3-byte and the 4-byte arm (R144, R145). -/
def Obligations.EncodeThreeAndFourByteArms : Prop :=
  ∀ (cp : Codepoint) (s : State),
    (0x800 ≤ cp.toNat ∧ cp.toNat ≤ 0xFFFF ∧ ¬ (0xD800 ≤ cp.toNat ∧ cp.toNat ≤ 0xDFFF) →
      exec (.encode cp) s =
        .next { s with eStatus := .ok, eLen := 3,
                       eB := ⟨BitVec.ofNat 8 (0xE0 + cp.toNat / 4096), BitVec.ofNat 8 (0x80 + cp.toNat / 64 % 64),
                              BitVec.ofNat 8 (0x80 + cp.toNat % 64), 0⟩ }) ∧
    (0x10000 ≤ cp.toNat ∧ cp.toNat ≤ 0x10FFFF →
      exec (.encode cp) s =
        .next { s with eStatus := .ok, eLen := 4,
                       eB := ⟨BitVec.ofNat 8 (0xF0 + cp.toNat / 262144),
                              BitVec.ofNat 8 (0x80 + cp.toNat / 4096 % 64),
                              BitVec.ofNat 8 (0x80 + cp.toNat / 64 % 64), BitVec.ofNat 8 (0x80 + cp.toNat % 64)⟩ })

/-- The frame of `ENCODE`: it writes the encoder's registers and nothing else, and its result is a function of the codepoint
alone (R140). -/
def Obligations.EncodeFrameAndPurity : Prop :=
  ∀ (cp : Codepoint) (s s' : State), ∃ t t', exec (.encode cp) s = .next t ∧ exec (.encode cp) s' = .next t' ∧
    t = { s with eStatus := t.eStatus, eLen := t.eLen, eB := t.eB } ∧ SameEncoder t t' ∧
    (∀ a, hostReadIbuf t a = hostReadIbuf s a) ∧ ∀ a, hostReadObuf t a = hostReadObuf s a

/-- `ENCODE` is injective on valid operands and its outputs are exactly the well-formed units (R149). -/
def Obligations.EncodeIsBijectionOntoWellFormedUnits : Prop :=
  ∀ s : State,
    (∀ cp us, hostEncode s cp = some us → IsScalar cp ∧ WellFormedUnit us) ∧
    (∀ cp cp' us, hostEncode s cp = some us → hostEncode s cp' = some us → cp = cp') ∧
    (∀ us, WellFormedUnit us → ∃ cp, hostEncode s cp = some us) ∧
    ∀ cp, IsScalar cp → ∃ us, hostEncode s cp = some us

/-- The round trip (R148): for every scalar value, `ENCODE`, then `SETBUF` of its bytes, then `DECODE`, give it back. -/
def Obligations.EncodeThenDecodeIsIdentity : Prop :=
  ∀ (s : State) (cp : Codepoint), Inv s → minimalLength cp ≤ s.bufCap → IsScalar cp →
    ∃ t u, exec (.encode cp) s = .next t ∧ t.eStatus = .ok ∧
      runAll [.setbuf (encodedBytes t), .decode 0] t = .next u ∧
      u.dStatus = .endOfInput ∧ u.ocnt = 1 ∧ hostReadObuf u 0 = some cp ∧ u.pos = t.eLen.toNat

/-! ## SETBUF, SEEK, RESET -/

/-- `SETBUF(bytes)` (R100): what it loads, what it clears, what it leaves, and when it is refused; loading the same bytes twice
gives the same state as once. -/
def Obligations.SetbufLoadsBuffer : Prop :=
  ∀ (bytes : List Byte) (s : State),
    (s.bufCap < bytes.length → exec (.setbuf bytes) s = .refused .setbufTooLong) ∧
    (bytes.length ≤ s.bufCap →
      ∃ t, exec (.setbuf bytes) s = .next t ∧
        t = { s with ibuf := t.ibuf, endPos := bytes.length, pos := 0, dStatus := .none, dCp := 0, dNcons := 0,
                     ocnt := 0 } ∧
        (∀ k (h : k < bytes.length), hostReadIbuf t k = some bytes[k]) ∧
        (∀ a, bytes.length ≤ a → hostReadIbuf t a = hostReadIbuf s a) ∧
        (∀ a, hostReadObuf t a = hostReadObuf s a) ∧
        (Memory.wf s.ibuf → exec (.setbuf bytes) t = .next t))

/-- `SEEK(p)` (R101): the cursor is placed and the result registers cleared, nothing else; refused beyond `END`. -/
def Obligations.SeekPlacesCursor : Prop :=
  ∀ (p : BitVec 32) (s : State),
    (s.endPos < p.toNat → exec (.seek p) s = .refused .seekBeyondEnd) ∧
    (p.toNat ≤ s.endPos →
      exec (.seek p) s = .next { s with pos := p.toNat, dStatus := .none, dCp := 0, dNcons := 0 } ∧
      ∀ t, exec (.seek p) s = .next t →
        (∀ a, hostReadIbuf t a = hostReadIbuf s a) ∧ ∀ a, hostReadObuf t a = hostReadObuf s a)

/-- `RESET` (R190) in every state: every register at the value of 10_state.md R38, whatever `arg` holds, and both memories hold
no value (R190: "a model must treat them as holding no value"). -/
def Obligations.ResetGivesResetState : Prop :=
  ∀ (x : BitVec 32) (s : State), ∃ t, exec (.reset x) s = .next t ∧ (∀ r, hostRead t r = 0) ∧
    (∀ a, hostReadIbuf t a = none) ∧ (∀ a, hostReadObuf t a = none)

/-- The model's reset state: every register reads 0 (10_state.md R38) and no entry of a memory holds a value, which is the
model's reading of R38's "unspecified" (assumption 3, DEDUCED from R190's "a model must treat them as holding no value"); then
`NEXT` and `DECODE` both report `END_OF_INPUT`. `State.reset` has the capacity the model chose (assumption 2, DESIGN CHOICE);
`ResetThenNextOrDecodeReportsEndOfInput` says R38 for every capacity and without the memories. -/
def Obligations.StateAfterResetIsEmptyBuffer : Prop :=
  (∀ r, hostRead State.reset r = 0) ∧ (∀ a, hostReadIbuf State.reset a = none) ∧
  (∀ a, hostReadObuf State.reset a = none) ∧
  exec (.next 0) State.reset = .next (afterEnd State.reset) ∧
  exec (.decode 0) State.reset = .next (afterEnd State.reset)

/-- After `RESET` (R38) in every state, so of every capacity: every register reads 0; then `NEXT` and `DECODE`, whatever `arg`
holds, report `END_OF_INPUT` and change nothing but the result registers, so `OCNT` stays 0. R38 leaves the memories
unspecified, and nothing is said of them here. -/
def Obligations.ResetThenNextOrDecodeReportsEndOfInput : Prop :=
  ∀ (x y : BitVec 32) (s : State), ∃ t, exec (.reset x) s = .next t ∧ (∀ r, hostRead t r = 0) ∧
    exec (.next y) t = .next (afterEnd t) ∧ exec (.decode y) t = .next (afterEnd t)

/-- The codes of the two status registers as the host reads them (R27, R31). -/
def Obligations.StatusCodesAreAsListed : Prop :=
  ∀ s : State,
    (hostRead s .dStatus =
      match s.dStatus with
      | .none => 0
      | .value => 1
      | .endOfInput => 2
      | .error .truncated => 3
      | .error .invalidLeadByte => 4
      | .error .invalidContinuationByte => 5
      | .error .overlongEncoding => 6
      | .error .surrogateCodepoint => 7
      | .error .outOfRangeCodepoint => 8) ∧
    hostRead s .eStatus =
      match s.eStatus with
      | .none => 0
      | .ok => 1
      | .invalidCodepoint => 9

/-! ## Rules of the whole machine -/

/-- The invariant holds after reset, for every capacity the parameter admits. -/
def Obligations.InvariantHoldsAtReset : Prop :=
  Inv State.reset ∧ ∀ cap, 1 ≤ cap → cap ≤ Config.bufCapMax → Inv (State.resetAt cap)

/-- Every step from a state of the invariant leads to one (10_state.md R24, R39, R40). -/
def Obligations.StepKeepsInvariant : Prop := ∀ s t : State, Inv s → step s = .next t → Inv t

/-- In a state of the invariant no step faults: no transaction hangs or stops; it completes or is refused (R10). -/
def Obligations.NoFaultFromInvariantStates : Prop := ∀ (s : State) (f : Fault), Inv s → step s ≠ .fault f

/-- Every register of a state of the invariant fits its width (10_state.md R20; 00_scope.md R4). -/
def Obligations.RegistersFitTheirWidths : Prop :=
  ∀ (s : State) (r : Reg), Inv s → hostRead s r < 2 ^ r.width s.bufCap

/-- The two units share no state (00_scope.md R2): no transaction of `DEC` (and no unit class) writes or reads encoder
registers, and `ENCODE` neither writes nor reads decoder state. -/
def Obligations.UnitsShareNoState : Prop :=
  (∀ (i : Instr) (s t : State), (∀ cp, i ≠ .encode cp) → (∀ x, i ≠ .reset x) → exec i s = .next t → SameEncoder t s) ∧
  (∀ (i : Instr) (s s' : State), (∀ cp, i ≠ .encode cp) → (∀ x, i ≠ .reset x) → SameDecoder s s' →
    s.bufCap = s'.bufCap →
    (∀ t, exec i s = .next t → ∃ t', exec i s' = .next t' ∧ SameDecoder t t') ∧
    (∀ r, exec i s = .refused r → exec i s' = .refused r)) ∧
  ∀ (cp : Codepoint) (s s' t t' : State), exec (.encode cp) s = .next t → exec (.encode cp) s' = .next t' →
    SameDecoder t s ∧ SameEncoder t t'

/-- Which transaction can leave which status (R161, R27): `NEXT` codes 1 to 8, `DECODE` codes 2 to 8, `SETBUF`, `SEEK` and
`RESET` code 0; `ENCODE` codes 1 and 9. -/
def Obligations.StatusesOfEachTransaction : Prop :=
  ∀ (s t : State),
    (∀ x, exec (.next x) s = .next t → t.dStatus ≠ .none) ∧
    (∀ x, exec (.decode x) s = .next t → t.dStatus ≠ .none ∧ t.dStatus ≠ .value) ∧
    (∀ bytes, exec (.setbuf bytes) s = .next t → t.dStatus = .none) ∧
    (∀ p, exec (.seek p) s = .next t → t.dStatus = .none) ∧
    (∀ x, exec (.reset x) s = .next t → t.dStatus = .none ∧ t.eStatus = .none) ∧
    ∀ cp, exec (.encode cp) s = .next t → t.eStatus = .ok ∨ t.eStatus = .invalidCodepoint

/-- Only `SETBUF` and `RESET` write `IBUF` and `END` (10_state.md R22, R25), only `DECODE` and `RESET` write `OBUF` (R26; that
`RESET` leaves the memories without a value is the model's reading of "unspecified", assumption 3), and no transaction
writes the capacity or the commands that wait. -/
def Obligations.OnlyTheirTransactionsWriteBuffers : Prop :=
  ∀ (i : Instr) (s t : State), exec i s = .next t →
    ((∀ bytes, i ≠ .setbuf bytes) → (∀ x, i ≠ .reset x) → t.ibuf = s.ibuf ∧ t.endPos = s.endPos) ∧
    ((∀ x, i ≠ .decode x) → (∀ x, i ≠ .reset x) → t.obuf = s.obuf) ∧
    t.bufCap = s.bufCap ∧ t.pending = s.pending

/-- A `NEXT` after `SEEK` into the middle of a unit finds a continuation byte as lead: no alignment, no resynchronising
(20_memory.md R54, 40_buffer_and_cursor.md R101). -/
def Obligations.SeekIntoUnitFindsInvalidLead : Prop :=
  ∀ (s : State) (p : BitVec 32) (b : Byte), s.endPos ≤ s.bufCap → p.toNat < s.endPos →
    hostReadIbuf s p.toNat = some b → IsCont b →
    runAll [.seek p, .next 0] s =
      .next { s with pos := p.toNat, dStatus := .error .invalidLeadByte, dCp := 0, dNcons := 0 }
end

