-- ==== Sys2Proof/Laws/State.lean ====
section
/-! SUPPORT. Laws/State.lean: one lemma per field per update, so that no proof unfolds a record update. -/

namespace Sys2Proof.Machine

@[simp] theorem State.withPos_ibuf (s : State) (p : Nat) : (s.withPos p).ibuf = s.ibuf := rfl
@[simp] theorem State.withPos_endPos (s : State) (p : Nat) : (s.withPos p).endPos = s.endPos := rfl
@[simp] theorem State.withPos_pos (s : State) (p : Nat) : (s.withPos p).pos = p := rfl
@[simp] theorem State.withPos_dStatus (s : State) (p : Nat) : (s.withPos p).dStatus = s.dStatus := rfl
@[simp] theorem State.withPos_dCp (s : State) (p : Nat) : (s.withPos p).dCp = s.dCp := rfl
@[simp] theorem State.withPos_dNcons (s : State) (p : Nat) : (s.withPos p).dNcons = s.dNcons := rfl
@[simp] theorem State.withPos_obuf (s : State) (p : Nat) : (s.withPos p).obuf = s.obuf := rfl
@[simp] theorem State.withPos_ocnt (s : State) (p : Nat) : (s.withPos p).ocnt = s.ocnt := rfl
@[simp] theorem State.withPos_eStatus (s : State) (p : Nat) : (s.withPos p).eStatus = s.eStatus := rfl
@[simp] theorem State.withPos_eLen (s : State) (p : Nat) : (s.withPos p).eLen = s.eLen := rfl
@[simp] theorem State.withPos_eB (s : State) (p : Nat) : (s.withPos p).eB = s.eB := rfl
@[simp] theorem State.withPos_bufCap (s : State) (p : Nat) : (s.withPos p).bufCap = s.bufCap := rfl
@[simp] theorem State.withPos_pending (s : State) (p : Nat) : (s.withPos p).pending = s.pending := rfl

@[simp] theorem State.withEnd_ibuf (s : State) (n : Nat) : (s.withEnd n).ibuf = s.ibuf := rfl
@[simp] theorem State.withEnd_endPos (s : State) (n : Nat) : (s.withEnd n).endPos = n := rfl
@[simp] theorem State.withEnd_pos (s : State) (n : Nat) : (s.withEnd n).pos = s.pos := rfl
@[simp] theorem State.withEnd_dStatus (s : State) (n : Nat) : (s.withEnd n).dStatus = s.dStatus := rfl
@[simp] theorem State.withEnd_dCp (s : State) (n : Nat) : (s.withEnd n).dCp = s.dCp := rfl
@[simp] theorem State.withEnd_dNcons (s : State) (n : Nat) : (s.withEnd n).dNcons = s.dNcons := rfl
@[simp] theorem State.withEnd_obuf (s : State) (n : Nat) : (s.withEnd n).obuf = s.obuf := rfl
@[simp] theorem State.withEnd_ocnt (s : State) (n : Nat) : (s.withEnd n).ocnt = s.ocnt := rfl
@[simp] theorem State.withEnd_eStatus (s : State) (n : Nat) : (s.withEnd n).eStatus = s.eStatus := rfl
@[simp] theorem State.withEnd_eLen (s : State) (n : Nat) : (s.withEnd n).eLen = s.eLen := rfl
@[simp] theorem State.withEnd_eB (s : State) (n : Nat) : (s.withEnd n).eB = s.eB := rfl
@[simp] theorem State.withEnd_bufCap (s : State) (n : Nat) : (s.withEnd n).bufCap = s.bufCap := rfl
@[simp] theorem State.withEnd_pending (s : State) (n : Nat) : (s.withEnd n).pending = s.pending := rfl

@[simp] theorem State.withOcnt_ibuf (s : State) (n : Nat) : (s.withOcnt n).ibuf = s.ibuf := rfl
@[simp] theorem State.withOcnt_endPos (s : State) (n : Nat) : (s.withOcnt n).endPos = s.endPos := rfl
@[simp] theorem State.withOcnt_pos (s : State) (n : Nat) : (s.withOcnt n).pos = s.pos := rfl
@[simp] theorem State.withOcnt_dStatus (s : State) (n : Nat) : (s.withOcnt n).dStatus = s.dStatus := rfl
@[simp] theorem State.withOcnt_dCp (s : State) (n : Nat) : (s.withOcnt n).dCp = s.dCp := rfl
@[simp] theorem State.withOcnt_dNcons (s : State) (n : Nat) : (s.withOcnt n).dNcons = s.dNcons := rfl
@[simp] theorem State.withOcnt_obuf (s : State) (n : Nat) : (s.withOcnt n).obuf = s.obuf := rfl
@[simp] theorem State.withOcnt_ocnt (s : State) (n : Nat) : (s.withOcnt n).ocnt = n := rfl
@[simp] theorem State.withOcnt_eStatus (s : State) (n : Nat) : (s.withOcnt n).eStatus = s.eStatus := rfl
@[simp] theorem State.withOcnt_eLen (s : State) (n : Nat) : (s.withOcnt n).eLen = s.eLen := rfl
@[simp] theorem State.withOcnt_eB (s : State) (n : Nat) : (s.withOcnt n).eB = s.eB := rfl
@[simp] theorem State.withOcnt_bufCap (s : State) (n : Nat) : (s.withOcnt n).bufCap = s.bufCap := rfl
@[simp] theorem State.withOcnt_pending (s : State) (n : Nat) : (s.withOcnt n).pending = s.pending := rfl

@[simp] theorem State.withResult_ibuf (s : State) (st : DStatus) (cp : Codepoint) (n : BitVec 3) : (s.withResult st cp n).ibuf = s.ibuf := rfl
@[simp] theorem State.withResult_endPos (s : State) (st : DStatus) (cp : Codepoint) (n : BitVec 3) : (s.withResult st cp n).endPos = s.endPos := rfl
@[simp] theorem State.withResult_pos (s : State) (st : DStatus) (cp : Codepoint) (n : BitVec 3) : (s.withResult st cp n).pos = s.pos := rfl
@[simp] theorem State.withResult_dStatus (s : State) (st : DStatus) (cp : Codepoint) (n : BitVec 3) : (s.withResult st cp n).dStatus = st := rfl
@[simp] theorem State.withResult_dCp (s : State) (st : DStatus) (cp : Codepoint) (n : BitVec 3) : (s.withResult st cp n).dCp = cp := rfl
@[simp] theorem State.withResult_dNcons (s : State) (st : DStatus) (cp : Codepoint) (n : BitVec 3) : (s.withResult st cp n).dNcons = n := rfl
@[simp] theorem State.withResult_obuf (s : State) (st : DStatus) (cp : Codepoint) (n : BitVec 3) : (s.withResult st cp n).obuf = s.obuf := rfl
@[simp] theorem State.withResult_ocnt (s : State) (st : DStatus) (cp : Codepoint) (n : BitVec 3) : (s.withResult st cp n).ocnt = s.ocnt := rfl
@[simp] theorem State.withResult_eStatus (s : State) (st : DStatus) (cp : Codepoint) (n : BitVec 3) : (s.withResult st cp n).eStatus = s.eStatus := rfl
@[simp] theorem State.withResult_eLen (s : State) (st : DStatus) (cp : Codepoint) (n : BitVec 3) : (s.withResult st cp n).eLen = s.eLen := rfl
@[simp] theorem State.withResult_eB (s : State) (st : DStatus) (cp : Codepoint) (n : BitVec 3) : (s.withResult st cp n).eB = s.eB := rfl
@[simp] theorem State.withResult_bufCap (s : State) (st : DStatus) (cp : Codepoint) (n : BitVec 3) : (s.withResult st cp n).bufCap = s.bufCap := rfl
@[simp] theorem State.withResult_pending (s : State) (st : DStatus) (cp : Codepoint) (n : BitVec 3) : (s.withResult st cp n).pending = s.pending := rfl

@[simp] theorem State.withEncoder_ibuf (s : State) (st : EStatus) (len : BitVec 3) (bs : EncBytes) : (s.withEncoder st len bs).ibuf = s.ibuf := rfl
@[simp] theorem State.withEncoder_endPos (s : State) (st : EStatus) (len : BitVec 3) (bs : EncBytes) : (s.withEncoder st len bs).endPos = s.endPos := rfl
@[simp] theorem State.withEncoder_pos (s : State) (st : EStatus) (len : BitVec 3) (bs : EncBytes) : (s.withEncoder st len bs).pos = s.pos := rfl
@[simp] theorem State.withEncoder_dStatus (s : State) (st : EStatus) (len : BitVec 3) (bs : EncBytes) : (s.withEncoder st len bs).dStatus = s.dStatus := rfl
@[simp] theorem State.withEncoder_dCp (s : State) (st : EStatus) (len : BitVec 3) (bs : EncBytes) : (s.withEncoder st len bs).dCp = s.dCp := rfl
@[simp] theorem State.withEncoder_dNcons (s : State) (st : EStatus) (len : BitVec 3) (bs : EncBytes) : (s.withEncoder st len bs).dNcons = s.dNcons := rfl
@[simp] theorem State.withEncoder_obuf (s : State) (st : EStatus) (len : BitVec 3) (bs : EncBytes) : (s.withEncoder st len bs).obuf = s.obuf := rfl
@[simp] theorem State.withEncoder_ocnt (s : State) (st : EStatus) (len : BitVec 3) (bs : EncBytes) : (s.withEncoder st len bs).ocnt = s.ocnt := rfl
@[simp] theorem State.withEncoder_eStatus (s : State) (st : EStatus) (len : BitVec 3) (bs : EncBytes) : (s.withEncoder st len bs).eStatus = st := rfl
@[simp] theorem State.withEncoder_eLen (s : State) (st : EStatus) (len : BitVec 3) (bs : EncBytes) : (s.withEncoder st len bs).eLen = len := rfl
@[simp] theorem State.withEncoder_eB (s : State) (st : EStatus) (len : BitVec 3) (bs : EncBytes) : (s.withEncoder st len bs).eB = bs := rfl
@[simp] theorem State.withEncoder_bufCap (s : State) (st : EStatus) (len : BitVec 3) (bs : EncBytes) : (s.withEncoder st len bs).bufCap = s.bufCap := rfl
@[simp] theorem State.withEncoder_pending (s : State) (st : EStatus) (len : BitVec 3) (bs : EncBytes) : (s.withEncoder st len bs).pending = s.pending := rfl

@[simp] theorem State.withIbuf_ibuf (s : State) (m : Memory Byte) : (s.withIbuf m).ibuf = m := rfl
@[simp] theorem State.withIbuf_endPos (s : State) (m : Memory Byte) : (s.withIbuf m).endPos = s.endPos := rfl
@[simp] theorem State.withIbuf_pos (s : State) (m : Memory Byte) : (s.withIbuf m).pos = s.pos := rfl
@[simp] theorem State.withIbuf_dStatus (s : State) (m : Memory Byte) : (s.withIbuf m).dStatus = s.dStatus := rfl
@[simp] theorem State.withIbuf_dCp (s : State) (m : Memory Byte) : (s.withIbuf m).dCp = s.dCp := rfl
@[simp] theorem State.withIbuf_dNcons (s : State) (m : Memory Byte) : (s.withIbuf m).dNcons = s.dNcons := rfl
@[simp] theorem State.withIbuf_obuf (s : State) (m : Memory Byte) : (s.withIbuf m).obuf = s.obuf := rfl
@[simp] theorem State.withIbuf_ocnt (s : State) (m : Memory Byte) : (s.withIbuf m).ocnt = s.ocnt := rfl
@[simp] theorem State.withIbuf_eStatus (s : State) (m : Memory Byte) : (s.withIbuf m).eStatus = s.eStatus := rfl
@[simp] theorem State.withIbuf_eLen (s : State) (m : Memory Byte) : (s.withIbuf m).eLen = s.eLen := rfl
@[simp] theorem State.withIbuf_eB (s : State) (m : Memory Byte) : (s.withIbuf m).eB = s.eB := rfl
@[simp] theorem State.withIbuf_bufCap (s : State) (m : Memory Byte) : (s.withIbuf m).bufCap = s.bufCap := rfl
@[simp] theorem State.withIbuf_pending (s : State) (m : Memory Byte) : (s.withIbuf m).pending = s.pending := rfl

@[simp] theorem State.withObuf_ibuf (s : State) (m : Memory Codepoint) : (s.withObuf m).ibuf = s.ibuf := rfl
@[simp] theorem State.withObuf_endPos (s : State) (m : Memory Codepoint) : (s.withObuf m).endPos = s.endPos := rfl
@[simp] theorem State.withObuf_pos (s : State) (m : Memory Codepoint) : (s.withObuf m).pos = s.pos := rfl
@[simp] theorem State.withObuf_dStatus (s : State) (m : Memory Codepoint) : (s.withObuf m).dStatus = s.dStatus := rfl
@[simp] theorem State.withObuf_dCp (s : State) (m : Memory Codepoint) : (s.withObuf m).dCp = s.dCp := rfl
@[simp] theorem State.withObuf_dNcons (s : State) (m : Memory Codepoint) : (s.withObuf m).dNcons = s.dNcons := rfl
@[simp] theorem State.withObuf_obuf (s : State) (m : Memory Codepoint) : (s.withObuf m).obuf = m := rfl
@[simp] theorem State.withObuf_ocnt (s : State) (m : Memory Codepoint) : (s.withObuf m).ocnt = s.ocnt := rfl
@[simp] theorem State.withObuf_eStatus (s : State) (m : Memory Codepoint) : (s.withObuf m).eStatus = s.eStatus := rfl
@[simp] theorem State.withObuf_eLen (s : State) (m : Memory Codepoint) : (s.withObuf m).eLen = s.eLen := rfl
@[simp] theorem State.withObuf_eB (s : State) (m : Memory Codepoint) : (s.withObuf m).eB = s.eB := rfl
@[simp] theorem State.withObuf_bufCap (s : State) (m : Memory Codepoint) : (s.withObuf m).bufCap = s.bufCap := rfl
@[simp] theorem State.withObuf_pending (s : State) (m : Memory Codepoint) : (s.withObuf m).pending = s.pending := rfl

@[simp] theorem State.withPending_ibuf (s : State) (q : List HostCmd) : (s.withPending q).ibuf = s.ibuf := rfl
@[simp] theorem State.withPending_endPos (s : State) (q : List HostCmd) : (s.withPending q).endPos = s.endPos := rfl
@[simp] theorem State.withPending_pos (s : State) (q : List HostCmd) : (s.withPending q).pos = s.pos := rfl
@[simp] theorem State.withPending_dStatus (s : State) (q : List HostCmd) : (s.withPending q).dStatus = s.dStatus := rfl
@[simp] theorem State.withPending_dCp (s : State) (q : List HostCmd) : (s.withPending q).dCp = s.dCp := rfl
@[simp] theorem State.withPending_dNcons (s : State) (q : List HostCmd) : (s.withPending q).dNcons = s.dNcons := rfl
@[simp] theorem State.withPending_obuf (s : State) (q : List HostCmd) : (s.withPending q).obuf = s.obuf := rfl
@[simp] theorem State.withPending_ocnt (s : State) (q : List HostCmd) : (s.withPending q).ocnt = s.ocnt := rfl
@[simp] theorem State.withPending_eStatus (s : State) (q : List HostCmd) : (s.withPending q).eStatus = s.eStatus := rfl
@[simp] theorem State.withPending_eLen (s : State) (q : List HostCmd) : (s.withPending q).eLen = s.eLen := rfl
@[simp] theorem State.withPending_eB (s : State) (q : List HostCmd) : (s.withPending q).eB = s.eB := rfl
@[simp] theorem State.withPending_bufCap (s : State) (q : List HostCmd) : (s.withPending q).bufCap = s.bufCap := rfl
@[simp] theorem State.withPending_pending (s : State) (q : List HostCmd) : (s.withPending q).pending = q := rfl

end Sys2Proof.Machine
end

