-- ==== Sys2Proof/Laws/Memory.lean ====
section
/-! SUPPORT. Laws/Memory.lean: the laws of the two memories: read after write, the canonical form, index ranges. -/

namespace Sys2Proof.Machine

variable {α : Type}

@[simp] theorem Memory.read_nil (a : Nat) : Memory.read ([] : Memory α) a = none := rfl

/-- A read at the index written gives the value written. -/
@[simp] theorem Memory.read_write_same (m : Memory α) (a : Nat) (v : α) :
    Memory.read (Memory.write m a v) a = some v := by
  induction m with
  | nil => simp [Memory.write, Memory.read]
  | cons e m ih =>
    obtain ⟨k, w⟩ := e
    simp only [Memory.write]
    split
    · simp [Memory.read]
    · split
      · simp [Memory.read]
      · have : k ≠ a := by omega
        simp [Memory.read, this, ih]

/-- A write leaves every other index alone. -/
theorem Memory.read_write_other (m : Memory α) {a b : Nat} (v : α) (h : b ≠ a) :
    Memory.read (Memory.write m a v) b = Memory.read m b := by
  induction m with
  | nil => simp [Memory.write, Memory.read, Ne.symm h]
  | cons e m ih =>
    obtain ⟨k, w⟩ := e
    simp only [Memory.write]
    split
    · simp [Memory.read, Ne.symm h]
    · split
      · subst_vars; simp [Memory.read, Ne.symm h]
      · simp [Memory.read, ih]

/-- What a memory holds after a write: the new entry and old ones. -/
theorem Memory.mem_write {m : Memory α} {a : Nat} {v : α} {e : Nat × α} (h : e ∈ Memory.write m a v) :
    e = (a, v) ∨ e ∈ m := by
  induction m with
  | nil => simpa [Memory.write] using h
  | cons x m ih =>
    obtain ⟨k, w⟩ := x
    simp only [Memory.write] at h
    split at h
    · simpa using h
    · split at h
      · rcases List.mem_cons.1 h with h | h
        · exact .inl h
        · exact .inr (List.mem_cons_of_mem _ h)
      · rcases List.mem_cons.1 h with h | h
        · exact .inr (h ▸ List.mem_cons_self)
        · exact (ih h).imp_right (List.mem_cons_of_mem _)

/-- A write keeps the canonical form. -/
theorem Memory.wf_write {m : Memory α} (a : Nat) (v : α) (h : Memory.wf m) : Memory.wf (Memory.write m a v) := by
  induction m with
  | nil => simp [Memory.write, Memory.wf]
  | cons x m ih =>
    obtain ⟨k, w⟩ := x
    obtain ⟨hk, hm⟩ := List.pairwise_cons.1 h
    simp only [Memory.write]
    split
    · refine List.pairwise_cons.2 ⟨fun e he => ?_, h⟩
      rcases List.mem_cons.1 he with rfl | he
      · assumption
      · exact Nat.lt_trans ‹a < k› (hk e he)
    · split
      · subst_vars
        exact List.pairwise_cons.2 ⟨hk, hm⟩
      · refine List.pairwise_cons.2 ⟨fun e he => ?_, ih hm⟩
        rcases Memory.mem_write he with rfl | he
        · simp only; omega
        · exact hk e he

/-- A value read is listed. -/
theorem Memory.mem_of_read {m : Memory α} {a : Nat} {v : α} (h : Memory.read m a = some v) : (a, v) ∈ m := by
  induction m with
  | nil => simp at h
  | cons x m ih =>
    obtain ⟨k, w⟩ := x
    simp only [Memory.read] at h
    split at h
    · cases h; subst_vars; exact List.mem_cons_self
    · exact List.mem_cons_of_mem _ (ih h)

/-- Writing what is already there changes nothing, in canonical form. -/
theorem Memory.write_eq_self {m : Memory α} {a : Nat} {v : α} (hm : Memory.wf m) (h : Memory.read m a = some v) :
    Memory.write m a v = m := by
  induction m with
  | nil => simp at h
  | cons x m ih =>
    obtain ⟨k, w⟩ := x
    obtain ⟨hk, hm⟩ := List.pairwise_cons.1 hm
    simp only [Memory.read] at h
    split at h
    · cases h; subst_vars; simp [Memory.write]
    · have := hk _ (Memory.mem_of_read h)
      simp only at this
      simp only [Memory.write]
      rw [if_neg (by omega), if_neg (by omega), ih hm h]

/-- Consecutive writes: the values written stand where they were put. -/
theorem Memory.read_writeFrom (vs : List α) (m : Memory α) (a : Nat) {k : Nat} (h : k < vs.length) :
    Memory.read (Memory.writeFrom m a vs) (a + k) = some vs[k] := by
  have key : ∀ (vs : List α) (m : Memory α) (a b : Nat), b < a →
      Memory.read (Memory.writeFrom m a vs) b = Memory.read m b := by
    intro vs
    induction vs with
    | nil => intros; rfl
    | cons v vs ih =>
      intro m a b hb
      rw [Memory.writeFrom, ih _ _ _ (by omega), Memory.read_write_other _ _ (by omega)]
  induction vs generalizing m a k with
  | nil => simp at h
  | cons v vs ih =>
    cases k with
    | zero => simp [Memory.writeFrom, key vs _ (a + 1) a (by omega)]
    | succ k =>
      have := ih (Memory.write m a v) (a + 1) (k := k) (by simpa using h)
      rw [Memory.writeFrom, show a + (k + 1) = a + 1 + k by omega, this]
      simp

/-- Consecutive writes leave every index outside theirs alone. -/
theorem Memory.read_writeFrom_other (vs : List α) (m : Memory α) (a b : Nat) (h : b < a ∨ a + vs.length ≤ b) :
    Memory.read (Memory.writeFrom m a vs) b = Memory.read m b := by
  induction vs generalizing m a with
  | nil => rfl
  | cons v vs ih =>
    simp only [List.length_cons] at h
    rw [Memory.writeFrom, ih _ _ (by omega), Memory.read_write_other _ _ (by omega)]

theorem Memory.wf_writeFrom (vs : List α) {m : Memory α} (a : Nat) (h : Memory.wf m) :
    Memory.wf (Memory.writeFrom m a vs) := by
  induction vs generalizing m a with
  | nil => exact h
  | cons v vs ih => exact ih _ (Memory.wf_write a v h)

/-- Consecutive writes within a range keep every index in it. -/
theorem Memory.range_writeFrom (vs : List α) {m : Memory α} (a : Nat) {n : Nat} (h : ∀ e ∈ m, e.1 < n)
    (hn : a + vs.length ≤ n) : ∀ e ∈ Memory.writeFrom m a vs, e.1 < n := by
  induction vs generalizing m a with
  | nil => exact h
  | cons v vs ih =>
    simp only [List.length_cons] at hn
    refine ih (m := Memory.write m a v) (a + 1) (fun e he => ?_) (by omega)
    rcases Memory.mem_write he with rfl | he
    · simp only; omega
    · exact h e he

/-- Writing again what consecutive writes left changes nothing, in canonical form. -/
theorem Memory.writeFrom_eq_self (vs : List α) {m : Memory α} (a : Nat) (hm : Memory.wf m)
    (h : ∀ k (hk : k < vs.length), Memory.read m (a + k) = some vs[k]) : Memory.writeFrom m a vs = m := by
  induction vs generalizing a with
  | nil => rfl
  | cons v vs ih =>
    have h0 := h 0 (by simp)
    rw [Memory.writeFrom, Memory.write_eq_self hm (by simpa using h0)]
    refine ih (a + 1) fun k hk => ?_
    have := h (k + 1) (by simpa using hk)
    rw [show a + 1 + k = a + (k + 1) by omega, this]
    simp

end Sys2Proof.Machine
end

