-- ==== Sys2Proof/Laws/Codec.lean ====
section
/-! SUPPORT. Laws/Codec.lean: the decoder of units, once for every reader, and the facts about single bytes. -/

namespace Sys2Proof

open Machine

/-! ## Single bytes: closed facts over the 256 values -/

theorem marked_iff (b : Byte) : marked b = true ↔ IsCont b := by
  revert b; decide

theorem contData_toNat (b : Byte) : (contData b).toNat = b.toNat % 64 := by
  revert b; decide

theorem leadClass_u1 (b : Byte) : b.toNat ≤ 0x7F → leadClass b = .u1 := by revert b; decide

theorem leadClass_cont (b : Byte) : 0x80 ≤ b.toNat ∧ b.toNat ≤ 0xBF → leadClass b = .cont := by revert b; decide

theorem leadClass_u2 (b : Byte) : 0xC0 ≤ b.toNat ∧ b.toNat ≤ 0xDF → leadClass b = .u2 := by revert b; decide

theorem leadClass_u3 (b : Byte) : 0xE0 ≤ b.toNat ∧ b.toNat ≤ 0xEF → leadClass b = .u3 := by revert b; decide

theorem leadClass_u4 (b : Byte) : 0xF0 ≤ b.toNat ∧ b.toNat ≤ 0xF7 → leadClass b = .u4 := by revert b; decide

theorem leadClass_f8 (b : Byte) : 0xF8 ≤ b.toNat → leadClass b = .f8 := by revert b; decide

/-! The lead byte of each form is its marker and its data bits. -/

theorem lead_split_u1 (b : Byte) : leadClass b = .u1 →
    (b.setWidth 7).setWidth 8 = b ∧ 0x0 ≤ b.toNat ∧ b.toNat ≤ 0x7F := by
  revert b; decide

theorem lead_split_u2 (b : Byte) : leadClass b = .u2 →
    Config.lead2Mark ||| (b.setWidth 5).setWidth 8 = b ∧ 0xC0 ≤ b.toNat ∧ b.toNat ≤ 0xDF := by
  revert b; decide

theorem lead_split_u3 (b : Byte) : leadClass b = .u3 →
    Config.lead3Mark ||| (b.setWidth 4).setWidth 8 = b ∧ 0xE0 ≤ b.toNat ∧ b.toNat ≤ 0xEF := by
  revert b; decide

theorem lead_split_u4 (b : Byte) : leadClass b = .u4 →
    Config.lead4Mark ||| (b.setWidth 3).setWidth 8 = b ∧ 0xF0 ≤ b.toNat ∧ b.toNat ≤ 0xF7 := by
  revert b; decide

theorem lead_split_cont (b : Byte) : leadClass b = .cont →
    Config.contMark ||| (b.setWidth 6).setWidth 8 = b ∧ 0x80 ≤ b.toNat ∧ b.toNat ≤ 0xBF := by
  revert b; decide

theorem lead_split_f8 (b : Byte) : leadClass b = .f8 →
    0xF8#8 ||| (b.setWidth 3).setWidth 8 = b ∧ 0xF8 ≤ b.toNat ∧ b.toNat ≤ 0xFF := by
  revert b; decide

theorem lead2_toNat (a : BitVec 5) : (Config.lead2Mark ||| a.setWidth 8).toNat = 0xC0 + a.toNat := by
  revert a; decide

theorem lead3_toNat (a : BitVec 4) : (Config.lead3Mark ||| a.setWidth 8).toNat = 0xE0 + a.toNat := by
  revert a; decide

theorem lead4_toNat (a : BitVec 3) : (Config.lead4Mark ||| a.setWidth 8).toNat = 0xF0 + a.toNat := by
  revert a; decide

/-! ## The continuation positions -/

/-- What the decoder reads at `n` continuation positions of a list. -/
def takeConts : Nat → List Byte → List Byte
  | 0, _ => []
  | _ + 1, [] => []
  | n + 1, b :: bs => if marked b then b :: takeConts n bs else [b]

/-- A reader that never fails gives the list's answer. -/
theorem contsFrom_ok {ε : Type} (bytes : List Byte) (k n : Nat) :
    contsFrom (fun k => (.ok bytes[k]? : Except ε (Option Byte))) k n = .ok (takeConts n (bytes.drop k)) := by
  induction n generalizing k with
  | zero => simp [contsFrom, takeConts]
  | succ n ih =>
    rw [contsFrom]
    cases hb : bytes[k]? with
    | none =>
      have : bytes.drop k = [] := by simpa using hb
      simp [this, takeConts]
    | some b =>
      obtain ⟨hk, rfl⟩ := List.getElem?_eq_some_iff.1 hb
      rw [List.drop_eq_getElem_cons hk, takeConts]
      simp only [ih]
      split <;> rfl

theorem takeConts_wellFormed (n : Nat) (bs : List Byte) : contsWellFormed n (takeConts n bs) = true := by
  induction n generalizing bs with
  | zero => simp [takeConts, contsWellFormed]
  | succ n ih =>
    cases bs with
    | nil => simp [takeConts, contsWellFormed]
    | cons b bs =>
      by_cases h : marked b = true
      · simp [takeConts, h, contsWellFormed, ih]
      · simp [takeConts, h, contsWellFormed]

/-- On what is well-formed the decoder reads all of it. -/
theorem takeConts_of_wellFormed (n : Nat) (ks : List Byte) (h : contsWellFormed n ks = true) : takeConts n ks = ks := by
  induction n generalizing ks with
  | zero => cases ks <;> simp_all [takeConts, contsWellFormed]
  | succ n ih =>
    cases ks with
    | nil => rfl
    | cons b ks =>
      by_cases hb : marked b = true
      · simp_all [takeConts, contsWellFormed]
      · simp_all [takeConts, contsWellFormed]

theorem takeConts_prefix (n : Nat) (bs : List Byte) : ∃ rest, bs = takeConts n bs ++ rest := by
  induction n generalizing bs with
  | zero => exact ⟨bs, rfl⟩
  | succ n ih =>
    cases bs with
    | nil => exact ⟨[], rfl⟩
    | cons b bs =>
      by_cases h : marked b = true
      · obtain ⟨rest, hr⟩ := ih bs
        exact ⟨rest, by simp [takeConts, h, ← hr]⟩
      · exact ⟨bs, by simp [takeConts, h]⟩

/-- What a reader must have answered for the positions the decoder took. -/
theorem contsFrom_read {ε : Type} {read : Nat → Except ε (Option Byte)} {k n : Nat} {ks : List Byte}
    (h : contsFrom read k n = .ok ks) :
    contsWellFormed n ks = true ∧ ∀ j, j < ks.length → read (k + j) = .ok ks[j]? := by
  induction n generalizing k ks with
  | zero => simp only [contsFrom] at h; cases h; simp [contsWellFormed]
  | succ n ih =>
    rw [contsFrom] at h
    split at h
    · cases h
    · cases h; simp [contsWellFormed]
    · rename_i b hb
      split at h
      · split at h
        · cases h
        · rename_i ks' hks
          cases h
          obtain ⟨hw, hr⟩ := ih hks
          refine ⟨by simp_all [contsWellFormed], fun j hj => ?_⟩
          cases j with
          | zero => simpa using hb
          | succ j =>
            have := hr j (by simpa using hj)
            rw [show k + (j + 1) = k + 1 + j by omega, this]
            simp
      · cases h
        refine ⟨by simp_all [contsWellFormed], fun j hj => ?_⟩
        have : j = 0 := by simpa using hj
        subst this
        simpa using hb

theorem takeConts_length_le (n : Nat) (bs : List Byte) : (takeConts n bs).length ≤ n := by
  induction n generalizing bs with
  | zero => simp [takeConts]
  | succ n ih =>
    cases bs with
    | nil => simp [takeConts]
    | cons b bs =>
      rw [takeConts]
      split
      · simpa using ih bs
      · simp

/-- The continuation positions `k` to `k + n - 1` are all that is read. -/
theorem contsFrom_congr {ε : Type} {r r' : Nat → Except ε (Option Byte)} (n k : Nat)
    (h : ∀ j, j < k + n → r j = r' j) : contsFrom r k n = contsFrom r' k n := by
  induction n generalizing k with
  | zero => rfl
  | succ n ih => rw [contsFrom, contsFrom, h k (by omega), ih (k + 1) fun j hj => h j (by omega)]

/-! ## Whole units -/

/-- The bytes of a unit. -/
def UnitForm.bytes : UnitForm → List Byte
  | .u1 v => [v.setWidth 8]
  | .u2 a ks => (Config.lead2Mark ||| a.setWidth 8) :: ks
  | .u3 a ks => (Config.lead3Mark ||| a.setWidth 8) :: ks
  | .u4 a ks => (Config.lead4Mark ||| a.setWidth 8) :: ks
  | .ileadCont x => [Config.contMark ||| x.setWidth 8]
  | .ileadF8 x => [0xF8#8 ||| x.setWidth 8]

@[simp] theorem encode_toInstr (u : UnitForm) : encode u.toInstr = .unit u.bytes := by
  cases u <;> rfl

theorem UnitForm.bytes_ne_nil (u : UnitForm) : u.bytes ≠ [] := by
  cases u <;> simp [UnitForm.bytes]

/-- The unit a list begins with: the lead's class, and the continuation positions. -/
def unitOf (b0 : Byte) (rest : List Byte) : UnitForm :=
  match leadClass b0 with
  | .u1 => .u1 (b0.setWidth 7)
  | .u2 => .u2 (b0.setWidth 5) (takeConts 1 rest)
  | .u3 => .u3 (b0.setWidth 4) (takeConts 2 rest)
  | .u4 => .u4 (b0.setWidth 3) (takeConts 3 rest)
  | .cont => .ileadCont (b0.setWidth 6)
  | .f8 => .ileadF8 (b0.setWidth 3)

theorem unitFrom_ok_cons {ε : Type} (b0 : Byte) (rest : List Byte) :
    unitFrom (fun k => (.ok (b0 :: rest)[k]? : Except ε (Option Byte))) = .ok (some (unitOf b0 rest)) := by
  unfold unitFrom unitOf formFrom
  simp only [List.getElem?_cons_zero]
  cases leadClass b0 <;> simp [contsFrom_ok]

theorem unitFrom_ok_nil {ε : Type} :
    unitFrom (fun k => (.ok ([] : List Byte)[k]? : Except ε (Option Byte))) = .ok none := by
  simp [unitFrom]

@[simp] theorem decodeUnit_cons (b0 : Byte) (rest : List Byte) : decodeUnit (b0 :: rest) = some (unitOf b0 rest) := by
  unfold decodeUnit
  rw [show listReader (b0 :: rest) = fun k => .ok (b0 :: rest)[k]? from rfl, unitFrom_ok_cons]

@[simp] theorem decodeUnit_nil : decodeUnit [] = none := rfl

/-- What a reader must have answered for the unit the decoder gave: the unit is well-formed and its bytes are the answers. -/
theorem unitFrom_read {ε : Type} {read : Nat → Except ε (Option Byte)} {u : UnitForm} (h : unitFrom read = .ok (some u)) :
    WellFormed u.toInstr ∧ ∀ j, j < u.bytes.length → read j = .ok u.bytes[j]? := by
  unfold unitFrom at h
  split at h
  · cases h
  · cases h
  · rename_i b0 hb
    have single : ∀ (u' : UnitForm), u'.bytes = [b0] → ∀ j, j < u'.bytes.length → read j = .ok u'.bytes[j]? := by
      intro u' hu' j hj
      have hj0 : j = 0 := by simpa [hu'] using hj
      subst hj0
      simpa [hu'] using hb
    have multi : ∀ (u' : UnitForm) (ks : List Byte), u'.bytes = b0 :: ks →
        (∀ j, j < ks.length → read (1 + j) = .ok ks[j]?) →
        ∀ j, j < u'.bytes.length → read j = .ok u'.bytes[j]? := by
      intro u' ks hu' hks j hj
      cases j with
      | zero => simpa [hu'] using hb
      | succ j =>
        have := hks j (by simpa [hu'] using hj)
        rw [Nat.add_comm] at this
        simp [hu', this]
    unfold formFrom at h
    split at h <;> rename_i hc
    · cases h
      exact ⟨rfl, single _ (by simp [UnitForm.bytes, (lead_split_u1 b0 hc).1])⟩
    · split at h
      · cases h
      · rename_i ks hks
        cases h
        obtain ⟨hw, hr⟩ := contsFrom_read hks
        exact ⟨hw, multi _ ks (by simp [UnitForm.bytes, (lead_split_u2 b0 hc).1]) hr⟩
    · split at h
      · cases h
      · rename_i ks hks
        cases h
        obtain ⟨hw, hr⟩ := contsFrom_read hks
        exact ⟨hw, multi _ ks (by simp [UnitForm.bytes, (lead_split_u3 b0 hc).1]) hr⟩
    · split at h
      · cases h
      · rename_i ks hks
        cases h
        obtain ⟨hw, hr⟩ := contsFrom_read hks
        exact ⟨hw, multi _ ks (by simp [UnitForm.bytes, (lead_split_u4 b0 hc).1]) hr⟩
    · cases h
      exact ⟨rfl, single _ (by simp [UnitForm.bytes, (lead_split_cont b0 hc).1])⟩
    · cases h
      exact ⟨rfl, single _ (by simp [UnitForm.bytes, (lead_split_f8 b0 hc).1])⟩

/-- A unit is decided by its first four positions. -/
theorem unitFrom_congr {ε : Type} {r r' : Nat → Except ε (Option Byte)} (h : ∀ j, j < 4 → r j = r' j) :
    unitFrom r = unitFrom r' := by
  unfold unitFrom formFrom
  rw [h 0 (by omega), contsFrom_congr 1 1 fun j hj => h j (by omega), contsFrom_congr 2 1 fun j hj => h j (by omega),
    contsFrom_congr 3 1 fun j hj => h j (by omega)]

end Sys2Proof
end

