-- ==== Sys2Proof/Laws/Units.lean ====
section
/-! SUPPORT. Laws/Units.lean: the value of a unit as a number, and what each class can do. -/

namespace Sys2Proof.Machine

/-- OR-ing six data bits into the zero bits below an accumulated multiple of `64 ^ (n + 1)` is adding them (R80 (b)). -/
theorem or_contData_toNat (acc : Codepoint) (b : Byte) (A n : Nat) (h : acc.toNat = A * 64 ^ (n + 1))
    (hA : (A + 1) * 64 ^ (n + 1) ≤ 2 ^ 32) :
    (acc ||| (contData b <<< (6 * n))).toNat = (A * 64 + b.toNat % 64) * 64 ^ n := by
  have hb : b.toNat % 64 < 64 := Nat.mod_lt _ (by decide)
  have h64 : 64 ^ n = 2 ^ (6 * n) := by rw [Nat.pow_mul]
  have hs : 64 ^ (n + 1) = 2 ^ (6 * n + 6) := by rw [show 64 = 2 ^ 6 from rfl, ← Nat.pow_mul]; congr 1
  have hd : (b.toNat % 64) * 2 ^ (6 * n) < 2 ^ (6 * n + 6) := by
    rw [Nat.pow_add, Nat.mul_comm]; exact Nat.mul_lt_mul_of_pos_left hb (by positivity)
  have hle : 2 ^ (6 * n + 6) ≤ 2 ^ 32 := by
    rw [← hs]; exact Nat.le_trans (Nat.le_mul_of_pos_left _ (by omega)) hA
  rw [BitVec.toNat_or, BitVec.toNat_shiftLeft, contData_toNat, Nat.shiftLeft_eq, Nat.mod_eq_of_lt (by omega), h, hs,
    ← Nat.shiftLeft_eq, ← Nat.shiftLeft_add_eq_or_of_lt hd, Nat.shiftLeft_eq, h64, Nat.pow_add]
  ring

/-- One step of the assembly. -/
theorem assembleFrom_cons (acc : Codepoint) (n : Nat) (b : Byte) (ks : List Byte) :
    assembleFrom acc (n + 1) (b :: ks) =
      if IsCont b then assembleFrom (acc ||| (contData b <<< (6 * n))) n ks
      else .error .invalidContinuationByte := by
  rw [assembleFrom]
  by_cases h : marked b = true
  · rw [if_pos h, if_pos ((marked_iff b).1 h)]
  · rw [if_neg h, if_neg (fun hc => h ((marked_iff b).2 hc))]

theorem ofNat_of_toNat {w : Nat} {v : BitVec w} {n : Nat} (h : v.toNat = n) : v = BitVec.ofNat w n := by
  apply BitVec.eq_of_toNat_eq
  rw [BitVec.toNat_ofNat, ← h, Nat.mod_eq_of_lt v.isLt]

theorem lead_shift_toNat {w : Nat} (a : BitVec w) (n : Nat) (hw : w + 6 * n ≤ 32) :
    ((a.setWidth 32) <<< (6 * n) : Codepoint).toNat = a.toNat * 64 ^ n := by
  have ha : a.toNat < 2 ^ w := a.isLt
  have hle : 2 ^ w ≤ 2 ^ 32 := Nat.pow_le_pow_right (by decide) (by omega)
  rw [BitVec.toNat_shiftLeft, BitVec.toNat_setWidth, Nat.mod_eq_of_lt (by omega : a.toNat < 2 ^ 32), Nat.shiftLeft_eq,
    show 64 ^ n = 2 ^ (6 * n) by rw [Nat.pow_mul]]
  apply Nat.mod_eq_of_lt
  calc a.toNat * 2 ^ (6 * n) < 2 ^ w * 2 ^ (6 * n) := Nat.mul_lt_mul_of_pos_right ha (by positivity)
    _ = 2 ^ (w + 6 * n) := by rw [Nat.pow_add]
    _ ≤ 2 ^ 32 := Nat.pow_le_pow_right (by decide) hw

/-- The assembled value, as a codepoint made of a number. -/
theorem assemble2 (a : BitVec 5) (ks : List Byte) :
    assemble 2 (a.setWidth 32) ks =
      match ks with
      | [] => .error .truncated
      | b1 :: _ =>
        if IsCont b1 then .ok (BitVec.ofNat 32 (a.toNat * 64 + b1.toNat % 64))
        else .error .invalidContinuationByte := by
  have ha : a.toNat < 32 := a.isLt
  unfold assemble
  cases ks with
  | nil => rfl
  | cons b1 ks =>
    simp only [show (2 - 1 : Nat) = 0 + 1 from rfl]
    rw [assembleFrom_cons]
    split
    · rw [assembleFrom]
      congr 1
      apply ofNat_of_toNat
      rw [or_contData_toNat _ _ a.toNat 0 (lead_shift_toNat a 1 (by decide)) (by omega)]
      omega
    · rfl

theorem assemble3 (a : BitVec 4) (ks : List Byte) :
    assemble 3 (a.setWidth 32) ks =
      match ks with
      | [] => .error .truncated
      | b1 :: ks' =>
        if IsCont b1 then
          match ks' with
          | [] => .error .truncated
          | b2 :: _ =>
            if IsCont b2 then .ok (BitVec.ofNat 32 (a.toNat * 4096 + b1.toNat % 64 * 64 + b2.toNat % 64))
            else .error .invalidContinuationByte
        else .error .invalidContinuationByte := by
  have ha : a.toNat < 16 := a.isLt
  unfold assemble
  cases ks with
  | nil => rfl
  | cons b1 ks =>
    simp only [show (3 - 1 : Nat) = 1 + 1 from rfl]
    rw [assembleFrom_cons]
    split
    · cases ks with
      | nil => rfl
      | cons b2 ks =>
        simp only
        rw [assembleFrom_cons]
        split
        · rw [assembleFrom]
          congr 1
          apply ofNat_of_toNat
          have h1 := or_contData_toNat _ b1 a.toNat 1 (lead_shift_toNat a 2 (by decide)) (by omega)
          rw [or_contData_toNat _ b2 _ 0 h1 (by omega)]
          omega
        · rfl
    · rfl

theorem assemble4 (a : BitVec 3) (ks : List Byte) :
    assemble 4 (a.setWidth 32) ks =
      match ks with
      | [] => .error .truncated
      | b1 :: ks' =>
        if IsCont b1 then
          match ks' with
          | [] => .error .truncated
          | b2 :: ks'' =>
            if IsCont b2 then
              match ks'' with
              | [] => .error .truncated
              | b3 :: _ =>
                if IsCont b3 then
                  .ok (BitVec.ofNat 32
                    (a.toNat * 262144 + b1.toNat % 64 * 4096 + b2.toNat % 64 * 64 + b3.toNat % 64))
                else .error .invalidContinuationByte
            else .error .invalidContinuationByte
        else .error .invalidContinuationByte := by
  have ha : a.toNat < 8 := a.isLt
  unfold assemble
  cases ks with
  | nil => rfl
  | cons b1 ks =>
    simp only [show (4 - 1 : Nat) = 2 + 1 from rfl]
    rw [assembleFrom_cons]
    split
    · cases ks with
      | nil => rfl
      | cons b2 ks =>
        simp only
        rw [assembleFrom_cons]
        split
        · cases ks with
          | nil => rfl
          | cons b3 ks =>
            simp only
            rw [assembleFrom_cons]
            split
            · rw [assembleFrom]
              congr 1
              apply ofNat_of_toNat
              have h1 := or_contData_toNat _ b1 a.toNat 2 (lead_shift_toNat a 3 (by decide)) (by omega)
              have h2 := or_contData_toNat _ b2 _ 1 h1 (by omega)
              rw [or_contData_toNat _ b3 _ 0 h2 (by omega)]
              omega
            · rfl
        · rfl
    · rfl

/-- The value tests on a value given as a number (R164 steps 4 to 6). -/
theorem checkValue_ofNat (len v : Nat) (hv : v < 2 ^ 32) :
    checkValue len (BitVec.ofNat 32 v) =
      if v < (minValue len).toNat then .error .overlongEncoding
      else if 0xD800 ≤ v ∧ v ≤ 0xDFFF then .error .surrogateCodepoint
      else if 0x10FFFF < v then .error .outOfRangeCodepoint
      else .ok (BitVec.ofNat 32 v) := by
  have h : (BitVec.ofNat 32 v).toNat = v := by rw [BitVec.toNat_ofNat, Nat.mod_eq_of_lt hv]
  simp only [checkValue, isSurrogate, BitVec.lt_def, BitVec.le_def, h, Config.surLo, Config.surHi, Config.cpMax,
    BitVec.toNat_ofNat, decide_eq_true_eq]

/-- Class `U2` as an instruction, on numbers. -/
theorem execU2_eq (a : BitVec 5) (ks : List Byte) (s : State) :
    execU2 a ks s = .next
      (match ks with
      | [] => afterError s .truncated
      | b1 :: _ =>
        if IsCont b1 then
          if a.toNat * 64 + b1.toNat % 64 < 0x80 then afterError s .overlongEncoding
          else afterValue s (a.toNat * 64 + b1.toNat % 64) 2
        else afterError s .invalidContinuationByte) := by
  have ha : a.toNat < 32 := a.isLt
  unfold execU2 unitValue
  rw [assemble2]
  rcases ks with _ | ⟨b1, ks⟩
  · rfl
  by_cases h1 : IsCont b1
  · simp only [if_pos h1]
    rw [checkValue_ofNat _ _ (by omega)]
    simp only [minValue, BitVec.reduceToNat]
    split
    · rfl
    · rw [if_neg (by omega), if_neg (by omega)]; rfl
  · simp only [if_neg h1]; rfl

/-- Class `U3` as an instruction, on numbers. -/
theorem execU3_eq (a : BitVec 4) (ks : List Byte) (s : State) :
    execU3 a ks s = .next
      (match ks with
      | [] => afterError s .truncated
      | b1 :: ks' =>
        if IsCont b1 then
          match ks' with
          | [] => afterError s .truncated
          | b2 :: _ =>
            if IsCont b2 then
              if a.toNat * 4096 + b1.toNat % 64 * 64 + b2.toNat % 64 < 0x800 then afterError s .overlongEncoding
              else if 0xD800 ≤ a.toNat * 4096 + b1.toNat % 64 * 64 + b2.toNat % 64 ∧
                  a.toNat * 4096 + b1.toNat % 64 * 64 + b2.toNat % 64 ≤ 0xDFFF then
                afterError s .surrogateCodepoint
              else afterValue s (a.toNat * 4096 + b1.toNat % 64 * 64 + b2.toNat % 64) 3
            else afterError s .invalidContinuationByte
        else afterError s .invalidContinuationByte) := by
  have ha : a.toNat < 16 := a.isLt
  unfold execU3 unitValue
  rw [assemble3]
  rcases ks with _ | ⟨b1, ks⟩
  · rfl
  by_cases h1 : IsCont b1
  · rcases ks with _ | ⟨b2, ks⟩
    · simp only [if_pos h1]; rfl
    by_cases h2 : IsCont b2
    · simp only [if_pos h1, if_pos h2]
      rw [checkValue_ofNat _ _ (by omega)]
      simp only [minValue, BitVec.reduceToNat]
      split
      · rfl
      · split
        · rfl
        · rw [if_neg (by omega)]; rfl
    · simp only [if_pos h1, if_neg h2]; rfl
  · simp only [if_neg h1]; rfl

/-- Class `U4` as an instruction, on numbers. -/
theorem execU4_eq (a : BitVec 3) (ks : List Byte) (s : State) :
    execU4 a ks s = .next
      (match ks with
      | [] => afterError s .truncated
      | b1 :: ks' =>
        if IsCont b1 then
          match ks' with
          | [] => afterError s .truncated
          | b2 :: ks'' =>
            if IsCont b2 then
              match ks'' with
              | [] => afterError s .truncated
              | b3 :: _ =>
                if IsCont b3 then
                  if a.toNat * 262144 + b1.toNat % 64 * 4096 + b2.toNat % 64 * 64 + b3.toNat % 64 < 0x10000 then
                    afterError s .overlongEncoding
                  else if 0x10FFFF <
                      a.toNat * 262144 + b1.toNat % 64 * 4096 + b2.toNat % 64 * 64 + b3.toNat % 64 then
                    afterError s .outOfRangeCodepoint
                  else
                    afterValue s (a.toNat * 262144 + b1.toNat % 64 * 4096 + b2.toNat % 64 * 64 + b3.toNat % 64) 4
                else afterError s .invalidContinuationByte
            else afterError s .invalidContinuationByte
        else afterError s .invalidContinuationByte) := by
  have ha : a.toNat < 8 := a.isLt
  unfold execU4 unitValue
  rw [assemble4]
  rcases ks with _ | ⟨b1, ks⟩
  · rfl
  by_cases h1 : IsCont b1
  · rcases ks with _ | ⟨b2, ks⟩
    · simp only [if_pos h1]; rfl
    by_cases h2 : IsCont b2
    · rcases ks with _ | ⟨b3, ks⟩
      · simp only [if_pos h1, if_pos h2]; rfl
      by_cases h3 : IsCont b3
      · simp only [if_pos h1, if_pos h2, if_pos h3]
        rw [checkValue_ofNat _ _ (by omega)]
        simp only [minValue, BitVec.reduceToNat]
        split
        · rfl
        · rw [if_neg (by omega)]
          split <;> rfl
      · simp only [if_pos h1, if_pos h2, if_neg h3]; rfl
    · simp only [if_pos h1, if_neg h2]; rfl
  · simp only [if_neg h1]; rfl

theorem execU1_eq (v : BitVec 7) (s : State) : execU1 v s = .next (afterValue s v.toNat 1) := by
  have h : v.toNat < 2 ^ 7 := v.isLt
  have : v.setWidth 32 = BitVec.ofNat 32 v.toNat := by
    apply ofNat_of_toNat; rw [BitVec.toNat_setWidth, Nat.mod_eq_of_lt (by omega)]
  simp only [execU1, this]
  rfl

end Sys2Proof.Machine
end

