-- ==== Sys2Proof/Laws/ByteTable.lean ====
section
/-! SUPPORT. Laws/ByteTable.lean: the table of well-formed units (30_encoding.md R86), length by length, against the classes. -/

namespace Sys2Proof.Machine

@[simp] theorem not_wellFormed_nil : isWellFormedUnit [] = false := rfl

theorem wellFormed_one (b0 : Byte) : WellFormedUnit [b0] ↔ b0.toNat ≤ 0x7F := by
  simp [WellFormedUnit, isWellFormedUnit, wellFormedRows, inRanges]

theorem wellFormed_two (b0 b1 : Byte) :
    WellFormedUnit [b0, b1] ↔ (0xC2 ≤ b0.toNat ∧ b0.toNat ≤ 0xDF) ∧ IsCont b1 := by
  simp [WellFormedUnit, isWellFormedUnit, wellFormedRows, inRanges]

theorem wellFormed_three (b0 b1 b2 : Byte) :
    WellFormedUnit [b0, b1, b2] ↔
      (0xE0 ≤ b0.toNat ∧ b0.toNat ≤ 0xEF) ∧ IsCont b1 ∧ IsCont b2 ∧
      ¬ (b0.toNat = 0xE0 ∧ b1.toNat < 0xA0) ∧ ¬ (b0.toNat = 0xED ∧ 0xA0 ≤ b1.toNat) := by
  simp [WellFormedUnit, isWellFormedUnit, wellFormedRows, inRanges]
  omega

theorem wellFormed_four (b0 b1 b2 b3 : Byte) :
    WellFormedUnit [b0, b1, b2, b3] ↔
      (0xF0 ≤ b0.toNat ∧ b0.toNat ≤ 0xF4) ∧ IsCont b1 ∧ IsCont b2 ∧ IsCont b3 ∧
      ¬ (b0.toNat = 0xF0 ∧ b1.toNat < 0x90) ∧ ¬ (b0.toNat = 0xF4 ∧ 0x90 ≤ b1.toNat) := by
  simp [WellFormedUnit, isWellFormedUnit, wellFormedRows, inRanges]
  omega

theorem not_wellFormed_long (b0 b1 b2 b3 b4 : Byte) (bs : List Byte) :
    ¬ WellFormedUnit (b0 :: b1 :: b2 :: b3 :: b4 :: bs) := by
  simp [isWellFormedUnit, wellFormedRows, inRanges]

/-- A well-formed unit has one to four bytes. -/
theorem WellFormedUnit.cases {us : List Byte} (h : WellFormedUnit us) :
    (∃ b0, us = [b0]) ∨ (∃ b0 b1, us = [b0, b1]) ∨ (∃ b0 b1 b2, us = [b0, b1, b2]) ∨
      ∃ b0 b1 b2 b3, us = [b0, b1, b2, b3] := by
  rcases us with _ | ⟨b0, _ | ⟨b1, _ | ⟨b2, _ | ⟨b3, _ | ⟨b4, bs⟩⟩⟩⟩⟩
  · exact absurd h (by decide)
  · exact .inl ⟨_, rfl⟩
  · exact .inr (.inl ⟨_, _, rfl⟩)
  · exact .inr (.inr (.inl ⟨_, _, _, rfl⟩))
  · exact .inr (.inr (.inr ⟨_, _, _, _, rfl⟩))
  · exact absurd h (not_wellFormed_long _ _ _ _ _ _)

theorem WellFormedUnit.length_pos {us : List Byte} (h : WellFormedUnit us) : 0 < us.length := by
  rcases us with _ | _
  · exact absurd h (by decide)
  · simp

theorem WellFormedUnit.length_le {us : List Byte} (h : WellFormedUnit us) : us.length ≤ 4 := by
  rcases h.cases with ⟨_, rfl⟩ | ⟨_, _, rfl⟩ | ⟨_, _, _, rfl⟩ | ⟨_, _, _, _, rfl⟩ <;> simp

theorem WellFormedUnit.number_lt {us : List Byte} (h : WellFormedUnit us) : unitNumber us < 2 ^ 32 := by
  rcases h.cases with ⟨_, rfl⟩ | ⟨_, _, rfl⟩ | ⟨_, _, _, rfl⟩ | ⟨_, _, _, _, rfl⟩ <;> simp only [unitNumber] <;> omega

/-- The number of a well-formed unit as a codepoint loses nothing. -/
theorem WellFormedUnit.codepoint_toNat {us : List Byte} (h : WellFormedUnit us) :
    (unitCodepoint us).toNat = unitNumber us := by
  rw [unitCodepoint, BitVec.toNat_ofNat, Nat.mod_eq_of_lt h.number_lt]

/-- A well-formed unit carries a scalar value, and has its minimal length (R79, R83 to R86). -/
theorem WellFormedUnit.minimal {us : List Byte} (h : WellFormedUnit us) :
    IsScalar (unitCodepoint us) ∧ minimalLength (unitCodepoint us) = us.length := by
  have hn := h.codepoint_toNat
  rcases h.cases with ⟨b0, rfl⟩ | ⟨b0, b1, rfl⟩ | ⟨b0, b1, b2, rfl⟩ | ⟨b0, b1, b2, b3, rfl⟩
  · have := (wellFormed_one _).1 h
    simp only [unitNumber] at hn
    refine ⟨by omega, ?_⟩
    unfold minimalLength
    split_ifs <;> simp <;> omega
  · have := (wellFormed_two _ _).1 h
    simp only [unitNumber] at hn
    refine ⟨by omega, ?_⟩
    unfold minimalLength
    split_ifs <;> simp <;> omega
  · have := (wellFormed_three _ _ _).1 h
    simp only [unitNumber] at hn
    refine ⟨by omega, ?_⟩
    unfold minimalLength
    split_ifs <;> simp <;> omega
  · have := (wellFormed_four _ _ _ _).1 h
    simp only [unitNumber] at hn
    refine ⟨by omega, ?_⟩
    unfold minimalLength
    split_ifs <;> simp <;> omega

/-- What a unit read by the decoder can do: a well-formed one completes with the value it carries, any other completes with
an error kind. -/
theorem runUnit_cases (u : UnitForm) (hw : WellFormed u.toInstr) (s : State) :
    (WellFormedUnit u.bytes ∧ runUnit u s = .next (afterValue s (unitNumber u.bytes) u.bytes.length)) ∨
    (¬ WellFormedUnit u.bytes ∧ ∃ k, runUnit u s = .next (afterError s k)) := by
  cases u with
  | u1 v =>
    have hv : v.toNat < 2 ^ 7 := v.isLt
    have h8 : (v.setWidth 8).toNat = v.toNat := by rw [BitVec.toNat_setWidth, Nat.mod_eq_of_lt (by omega)]
    refine .inl ⟨(wellFormed_one _).2 (by rw [h8]; omega), ?_⟩
    simp only [runUnit, UnitForm.bytes, unitNumber, h8, execU1_eq, List.length]
  | u2 a ks =>
    have hw : contsWellFormed 1 ks = true := hw
    have ha : a.toNat < 32 := a.isLt
    have hl := lead2_toNat a
    simp only [runUnit, UnitForm.bytes, execU2_eq]
    rcases ks with _ | ⟨b1, _ | ⟨b2, ks⟩⟩
    · exact .inr ⟨fun h => by have := (wellFormed_one _).1 h; omega, _, rfl⟩
    · by_cases h1 : IsCont b1
      · simp only [if_pos h1]
        by_cases ho : a.toNat * 64 + b1.toNat % 64 < 0x80
        · exact .inr ⟨fun h => by have := (wellFormed_two _ _).1 h; omega, _, by rw [if_pos ho]⟩
        · refine .inl ⟨(wellFormed_two _ _).2 ⟨by omega, h1⟩, ?_⟩
          rw [if_neg ho]
          simp only [unitNumber, List.length, hl]
          rw [show (0xC0 + a.toNat) % 32 = a.toNat by omega]
      · simp only [if_neg h1]
        exact .inr ⟨fun h => h1 ((wellFormed_two _ _).1 h).2, _, rfl⟩
    · exfalso
      by_cases h1 : marked b1 = true <;>
        simp [contsWellFormed, h1] at hw
  | u3 a ks =>
    have hw : contsWellFormed 2 ks = true := hw
    have ha : a.toNat < 16 := a.isLt
    have hl := lead3_toNat a
    simp only [runUnit, UnitForm.bytes, execU3_eq]
    rcases ks with _ | ⟨b1, ks⟩
    · exact .inr ⟨fun h => by have := (wellFormed_one _).1 h; omega, _, rfl⟩
    by_cases h1 : IsCont b1
    · simp only [if_pos h1]
      rcases ks with _ | ⟨b2, _ | ⟨b3, ks⟩⟩
      · exact .inr ⟨fun h => by have := (wellFormed_two _ _).1 h; omega, _, rfl⟩
      · by_cases h2 : IsCont b2
        · simp only [if_pos h2]
          by_cases ho : a.toNat * 4096 + b1.toNat % 64 * 64 + b2.toNat % 64 < 0x800
          · exact .inr ⟨fun h => by have := (wellFormed_three _ _ _).1 h; omega, _, by rw [if_pos ho]⟩
          · rw [if_neg ho]
            by_cases hs : 0xD800 ≤ a.toNat * 4096 + b1.toNat % 64 * 64 + b2.toNat % 64 ∧
                a.toNat * 4096 + b1.toNat % 64 * 64 + b2.toNat % 64 ≤ 0xDFFF
            · exact .inr ⟨fun h => by have := (wellFormed_three _ _ _).1 h; omega, _, by rw [if_pos hs]⟩
            · refine .inl ⟨(wellFormed_three _ _ _).2 (by omega), ?_⟩
              rw [if_neg hs]
              simp only [unitNumber, List.length, hl]
              rw [show (0xE0 + a.toNat) % 16 = a.toNat by omega]
        · simp only [if_neg h2]
          exact .inr ⟨fun h => h2 ((wellFormed_three _ _ _).1 h).2.2.1, _, rfl⟩
      · exfalso
        by_cases h1' : marked b1 = true <;> by_cases h2 : marked b2 = true <;>
          simp [contsWellFormed, h1', h2] at hw
    · simp only [if_neg h1]
      refine .inr ⟨fun h => ?_, _, rfl⟩
      have hk : ¬ marked b1 = true := fun hm => h1 ((marked_iff b1).1 hm)
      have : ks = [] := by simpa [contsWellFormed, hk] using hw
      subst this
      have := (wellFormed_two _ _).1 h
      omega
  | u4 a ks =>
    have hw : contsWellFormed 3 ks = true := hw
    have ha : a.toNat < 8 := a.isLt
    have hl := lead4_toNat a
    simp only [runUnit, UnitForm.bytes, execU4_eq]
    rcases ks with _ | ⟨b1, ks⟩
    · exact .inr ⟨fun h => by have := (wellFormed_one _).1 h; omega, _, rfl⟩
    by_cases h1 : IsCont b1
    · simp only [if_pos h1]
      rcases ks with _ | ⟨b2, ks⟩
      · exact .inr ⟨fun h => by have := (wellFormed_two _ _).1 h; omega, _, rfl⟩
      by_cases h2 : IsCont b2
      · simp only [if_pos h2]
        rcases ks with _ | ⟨b3, _ | ⟨b4, ks⟩⟩
        · exact .inr ⟨fun h => by have := (wellFormed_three _ _ _).1 h; omega, _, rfl⟩
        · by_cases h3 : IsCont b3
          · simp only [if_pos h3]
            by_cases ho : a.toNat * 262144 + b1.toNat % 64 * 4096 + b2.toNat % 64 * 64 + b3.toNat % 64 < 0x10000
            · exact .inr ⟨fun h => by have := (wellFormed_four _ _ _ _).1 h; omega, _, by rw [if_pos ho]⟩
            · rw [if_neg ho]
              by_cases hr : 0x10FFFF <
                  a.toNat * 262144 + b1.toNat % 64 * 4096 + b2.toNat % 64 * 64 + b3.toNat % 64
              · exact .inr ⟨fun h => by have := (wellFormed_four _ _ _ _).1 h; omega, _, by rw [if_pos hr]⟩
              · refine .inl ⟨(wellFormed_four _ _ _ _).2 (by omega), ?_⟩
                rw [if_neg hr]
                simp only [unitNumber, List.length, hl]
                rw [show (0xF0 + a.toNat) % 8 = a.toNat by omega]
          · simp only [if_neg h3]
            exact .inr ⟨fun h => h3 ((wellFormed_four _ _ _ _).1 h).2.2.2.1, _, rfl⟩
        · exfalso
          have m1 := (marked_iff b1).2 h1
          have m2 := (marked_iff b2).2 h2
          by_cases m3 : marked b3 = true <;>
            simp [contsWellFormed, m1, m2, m3] at hw
      · simp only [if_neg h2]
        refine .inr ⟨fun h => ?_, _, rfl⟩
        have m1 := (marked_iff b1).2 h1
        have m2 : ¬ marked b2 = true := fun hm => h2 ((marked_iff b2).1 hm)
        have : ks = [] := by simpa [contsWellFormed, m1, m2] using hw
        subst this
        have := (wellFormed_three _ _ _).1 h
        omega
    · simp only [if_neg h1]
      refine .inr ⟨fun h => ?_, _, rfl⟩
      have hk : ¬ marked b1 = true := fun hm => h1 ((marked_iff b1).1 hm)
      have : ks = [] := by simpa [contsWellFormed, hk] using hw
      subst this
      have := (wellFormed_two _ _).1 h
      omega
  | ileadCont x =>
    have : (Config.contMark ||| x.setWidth 8).toNat = 0x80 + x.toNat := by revert x; decide
    refine .inr ⟨fun h => ?_, _, rfl⟩
    have := (wellFormed_one _).1 h
    omega
  | ileadF8 x =>
    have : (0xF8#8 ||| x.setWidth 8).toNat = 0xF8 + x.toNat := by revert x; decide
    refine .inr ⟨fun h => ?_, _, rfl⟩
    have := (wellFormed_one _).1 h
    omega

theorem takeConts_of_cont (n : Nat) (ks rest : List Byte) (hn : ks.length = n) (h : ∀ k ∈ ks, IsCont k) :
    takeConts n (ks ++ rest) = ks := by
  induction ks generalizing n with
  | nil => subst hn; rfl
  | cons b ks ih =>
    subst hn
    have hb := (marked_iff b).2 (h b List.mem_cons_self)
    simp only [List.length_cons, List.cons_append, takeConts, hb, if_true]
    rw [ih _ rfl (fun k hk => h k (List.mem_cons_of_mem _ hk))]

/-- A list that begins with a complete marked unit decodes to that unit. -/
theorem unitOf_marked (b0 : Byte) (ks rest : List Byte) (hl : IsLeadOf (ks.length + 1) b0) (h : ∀ k ∈ ks, IsCont k) :
    (unitOf b0 (ks ++ rest)).bytes = b0 :: ks := by
  rcases hl with ⟨hn, hb⟩ | ⟨hn, hb⟩ | ⟨hn, hb⟩
  · have hc := leadClass_u2 b0 hb
    simp only [unitOf, hc, UnitForm.bytes, (lead_split_u2 b0 hc).1, takeConts_of_cont 1 ks rest (by omega) h]
  · have hc := leadClass_u3 b0 hb
    simp only [unitOf, hc, UnitForm.bytes, (lead_split_u3 b0 hc).1, takeConts_of_cont 2 ks rest (by omega) h]
  · have hc := leadClass_u4 b0 hb
    simp only [unitOf, hc, UnitForm.bytes, (lead_split_u4 b0 hc).1, takeConts_of_cont 3 ks rest (by omega) h]

/-- A list that begins with a well-formed unit decodes to that unit. -/
theorem decodeUnit_wellFormed {us : List Byte} (h : WellFormedUnit us) (rest : List Byte) :
    ∃ u, decodeUnit (us ++ rest) = some u ∧ u.bytes = us := by
  rcases h.cases with ⟨b0, rfl⟩ | ⟨b0, b1, rfl⟩ | ⟨b0, b1, b2, rfl⟩ | ⟨b0, b1, b2, b3, rfl⟩
  · have hc := leadClass_u1 b0 ((wellFormed_one _).1 h)
    exact ⟨_, decodeUnit_cons b0 rest, by simp only [unitOf, hc, UnitForm.bytes, (lead_split_u1 b0 hc).1]⟩
  · have hw := (wellFormed_two _ _).1 h
    exact ⟨_, decodeUnit_cons b0 _, unitOf_marked b0 [b1] rest (by simp only [List.length]; omega) (by simpa using hw.2)⟩
  · have hw := (wellFormed_three _ _ _).1 h
    exact ⟨_, decodeUnit_cons b0 _, unitOf_marked b0 [b1, b2] rest (by simp only [List.length]; omega)
      (by simpa using ⟨hw.2.1, hw.2.2.1⟩)⟩
  · have hw := (wellFormed_four _ _ _ _).1 h
    exact ⟨_, decodeUnit_cons b0 _, unitOf_marked b0 [b1, b2, b3] rest (by simp only [List.length]; omega)
      (by simpa using ⟨hw.2.1, hw.2.2.1, hw.2.2.2.1⟩)⟩

end Sys2Proof.Machine
end

