-- ==== Sys2Proof/Laws/Next.lean ====
section
/-! SUPPORT. Laws/Next.lean: what `NEXT` reads and everything it can do. -/

namespace Sys2Proof.Machine

/-! ## What the buffer holds, entry by entry -/

theorem getElem?_bufferBytes (s : State) (k : Nat) :
    (bufferBytes s)[k]? = if k < s.endPos then some (hostReadIbuf s k) else none := by
  unfold bufferBytes
  split
  · rw [List.getElem?_map, List.getElem?_range ‹_›]; rfl
  · rw [List.getElem?_eq_none]; simp; omega

theorem CursorHolds.length {s : State} {bs : List Byte} (h : CursorHolds s bs) : s.pos + bs.length = s.endPos := by
  have hl := congrArg List.length h.2.2
  simp only [bufferBytes, List.length_drop, List.length_map, List.length_range] at hl
  have := h.1
  omega

theorem CursorHolds.read {s : State} {bs : List Byte} (h : CursorHolds s bs) {k : Nat} (hk : k < bs.length) :
    Memory.read s.ibuf (s.pos + k) = some bs[k] := by
  have hl := h.length
  have h1 : ((bufferBytes s).drop s.pos)[k]? = some (some bs[k]) := by
    rw [h.2.2]; simp [hk]
  rw [List.getElem?_drop, getElem?_bufferBytes, if_pos (by omega)] at h1
  exact Option.some.inj h1

/-- Readable entries from the cursor to the end boundary are what the cursor holds. -/
theorem cursorHolds_of_read {s : State} {bs : List Byte} (hl : s.pos + bs.length = s.endPos) (hc : s.endPos ≤ s.bufCap)
    (h : ∀ k (hk : k < bs.length), Memory.read s.ibuf (s.pos + k) = some bs[k]) : CursorHolds s bs := by
  refine ⟨by omega, hc, List.ext_getElem? fun k => ?_⟩
  rw [List.getElem?_drop, getElem?_bufferBytes, List.getElem?_map]
  by_cases hk : k < bs.length
  · rw [if_pos (by omega), List.getElem?_eq_getElem hk]
    exact congrArg some (h k hk)
  · rw [if_neg (by omega), List.getElem?_eq_none (by omega)]; rfl

theorem cursorHolds_of_bufferHolds {s : State} {bs : List Byte} (h : BufferHolds s bs) (hp : s.pos = 0) :
    CursorHolds s bs := by
  refine ⟨by omega, h.2, ?_⟩
  rw [hp, List.drop_zero, h.1]

theorem bufferHolds_length {s : State} {bs : List Byte} (h : BufferHolds s bs) : s.endPos = bs.length := by
  have hl := congrArg List.length h.1
  simpa [bufferBytes] using hl

/-- What the cursor holds after the first bytes. -/
theorem CursorHolds.advance {s t : State} {us rest : List Byte} (h : CursorHolds s (us ++ rest)) (hi : t.ibuf = s.ibuf)
    (he : t.endPos = s.endPos) (hc : t.bufCap = s.bufCap) (hp : t.pos = s.pos + us.length) : CursorHolds t rest := by
  have hl := h.length
  simp only [List.length_append] at hl
  refine cursorHolds_of_read (by omega) (by rw [he, hc]; exact h.2.1) fun k hk => ?_
  have := h.read (k := us.length + k) (by simp; omega)
  rw [hi, hp, Nat.add_assoc, this]
  simp

/-! ## The reader -/

theorem ibufRead_ok {s : State} {a : Nat} {b : Byte} (h : ibufRead s a = .ok b) :
    a < s.endPos ∧ a < s.bufCap ∧ Memory.read s.ibuf a = some b := by
  unfold ibufRead at h
  split at h
  · split at h
    · cases h; exact ⟨by omega, by omega, by assumption⟩
    · cases h
  · cases h

theorem ibufRead_ne_loopBound (s : State) (a : Nat) : ibufRead s a ≠ .error .loopBound := by
  unfold ibufRead
  split
  · split <;> intro h <;> cases h
  · intro h; cases h

theorem cursorReader_ne_loopBound (s : State) (k : Nat) : cursorReader s k ≠ .error .loopBound := by
  unfold cursorReader
  split
  · intro h; cases h
  · split
    · intro h; cases h
    · rename_i hf; intro h; cases h; exact ibufRead_ne_loopBound _ _ hf

theorem cursorReader_ok_some {s : State} {k : Nat} {b : Byte} (h : cursorReader s k = .ok (some b)) :
    s.pos + k < s.endPos ∧ s.pos + k < s.bufCap ∧ Memory.read s.ibuf (s.pos + k) = some b := by
  unfold cursorReader at h
  split at h
  · cases h
  · split at h
    · cases h; exact ibufRead_ok (by assumption)
    · cases h

theorem CursorHolds.reader {s : State} {bs : List Byte} (h : CursorHolds s bs) :
    cursorReader s = fun k => .ok bs[k]? := by
  funext k
  have hl := h.length
  have hc := h.2.1
  unfold cursorReader
  by_cases hk : k < bs.length
  · rw [if_neg (by omega)]
    unfold ibufRead
    rw [if_pos (by omega), h.read hk, List.getElem?_eq_getElem hk]
  · rw [if_pos (by omega), List.getElem?_eq_none (by omega)]

/-! ## NEXT -/

@[simp] theorem exec_next (x : BitVec 32) (s : State) : exec (.next x) s = nextUnit s := rfl

theorem exec_toInstr (u : UnitForm) (s : State) : exec u.toInstr s = runUnit u s := by
  cases u <;> rfl

theorem nextUnit_at_end {s : State} (h : s.pos = s.endPos) : nextUnit s = .next (afterEnd s) := by
  rw [nextUnit, if_pos h]; rfl

/-- `NEXT` on readable bytes runs the unit they begin with. -/
theorem nextUnit_of_cursor {s : State} {b0 : Byte} {rest : List Byte} (h : CursorHolds s (b0 :: rest)) :
    nextUnit s = runUnit (unitOf b0 rest) s := by
  have hl := h.length
  simp only [List.length_cons] at hl
  rw [nextUnit, if_neg (by omega), h.reader, unitFrom_ok_cons]

/-- Everything `NEXT` can do when it answers a next state: the end of the buffer; an error kind, the failure completion and
nothing else; or a well-formed unit, read byte by byte below `END`. -/
theorem nextUnit_cases {s t : State} (h : nextUnit s = .next t) :
    (s.pos = s.endPos ∧ t = afterEnd s) ∨
    (s.pos < s.endPos ∧ ∃ k, t = afterError s k) ∨
    ∃ us, WellFormedUnit us ∧ s.pos + us.length ≤ s.endPos ∧
      (∀ k (hk : k < us.length), Memory.read s.ibuf (s.pos + k) = some us[k]) ∧
      t = afterValue s (unitNumber us) us.length := by
  unfold nextUnit at h
  split at h
  · cases h; exact .inl ⟨by assumption, rfl⟩
  · split at h
    · cases h
    · cases h
    · rename_i u hu
      obtain ⟨hw, hr⟩ := unitFrom_read hu
      have hread : ∀ k (hk : k < u.bytes.length), s.pos + k < s.endPos ∧
          Memory.read s.ibuf (s.pos + k) = some u.bytes[k] := by
        intro k hk
        have := hr k hk
        rw [List.getElem?_eq_getElem hk] at this
        exact ⟨(cursorReader_ok_some this).1, (cursorReader_ok_some this).2.2⟩
      have hpos : 0 < u.bytes.length := List.length_pos_of_ne_nil u.bytes_ne_nil
      rcases runUnit_cases u hw s with ⟨hwf, hv⟩ | ⟨-, k, hk⟩
      · rw [hv] at h; cases h
        refine .inr (.inr ⟨_, hwf, ?_, fun k hk => (hread k hk).2, rfl⟩)
        have := (hread (u.bytes.length - 1) (by omega)).1
        omega
      · rw [hk] at h; cases h
        exact .inr (.inl ⟨by have := (hread 0 hpos).1; omega, k, rfl⟩)

/-- `NEXT` gives no meaning to nothing. -/
theorem nextUnit_ne_refused (s : State) (r : Refusal) : nextUnit s ≠ .refused r := by
  intro h
  unfold nextUnit at h
  split at h
  · cases h
  · split at h
    · cases h
    · cases h
    · rename_i u hu
      rcases runUnit_cases u (unitFrom_read hu).1 s with ⟨-, hv⟩ | ⟨-, k, hk⟩
      · rw [hv] at h; cases h
      · rw [hk] at h; cases h

/-- `NEXT` never reports the bound of `DECODE`. -/
theorem nextUnit_ne_loopBound (s : State) : nextUnit s ≠ .fault .loopBound := by
  have hread := cursorReader_ne_loopBound s
  have hconts : ∀ n k, contsFrom (cursorReader s) k n ≠ .error .loopBound := by
    intro n
    induction n with
    | zero => intro k h; cases h
    | succ n ih =>
      intro k h
      rw [contsFrom] at h
      split at h
      · rename_i hk; cases h; exact hread _ hk
      · cases h
      · split at h
        · split at h
          · rename_i hk; cases h; exact ih _ hk
          · cases h
        · cases h
  intro h
  unfold nextUnit at h
  split at h
  · cases h
  · split at h
    · rename_i f hf
      cases h
      unfold unitFrom formFrom at hf
      split at hf
      · rename_i hk; cases hf; exact hread _ hk
      · cases hf
      · split at hf
        all_goals first
          | cases hf
          | (split at hf
             · rename_i hk; cases hf; exact hconts _ _ hk
             · cases hf)
    · cases h
    · rename_i u hu
      rcases runUnit_cases u (unitFrom_read hu).1 s with ⟨-, hv⟩ | ⟨-, k, hk⟩
      · rw [hv] at h; cases h
      · rw [hk] at h; cases h

/-- The error kind of a unit is a function of the unit alone. -/
theorem runUnit_error {u : UnitForm} {s : State} {k : ErrorKind} (h : runUnit u s = .next (afterError s k))
    (s' : State) : runUnit u s' = .next (afterError s' k) := by
  have key : ∀ (len : Nat) (r : Except ErrorKind Codepoint), finishUnit len r s = .next (afterError s k) →
      finishUnit len r s' = .next (afterError s' k) := by
    intro len r hr
    cases r with
    | error k' =>
      have : k' = k := by simpa [finishUnit, raiseKind, State.withResult] using hr
      subst this
      rfl
    | ok v => simp [finishUnit, completeValue, State.withResult, State.withPos] at hr
  cases u with
  | u1 v => simp [runUnit, execU1_eq] at h
  | u2 a ks => exact key _ _ h
  | u3 a ks => exact key _ _ h
  | u4 a ks => exact key _ _ h
  | ileadCont x => exact key 1 (.error .invalidLeadByte) h
  | ileadF8 x => exact key 1 (.error .invalidLeadByte) h

/-- Every unit, well-formed as a term or not, completes with an error kind or with a value, and writes only what those do. -/
theorem runUnit_outcome (u : UnitForm) (s : State) :
    (∃ k, runUnit u s = .next (afterError s k)) ∨ ∃ v n, n ≤ 4 ∧ runUnit u s = .next (afterValue s v n) := by
  have key : ∀ (len : Nat) (r : Except ErrorKind Codepoint), len ≤ 4 →
      (∃ k, finishUnit len r s = .next (afterError s k)) ∨
        ∃ v n, n ≤ 4 ∧ finishUnit len r s = .next (afterValue s v n) := by
    intro len r hl
    cases r with
    | error k => exact .inl ⟨k, rfl⟩
    | ok v =>
      refine .inr ⟨v.toNat, len, hl, ?_⟩
      simp only [afterValue, BitVec.ofNat_toNat, BitVec.setWidth_eq]
      rfl
  cases u with
  | u1 v => exact .inr ⟨_, 1, by omega, execU1_eq v s⟩
  | u2 a ks => exact key _ _ (by omega)
  | u3 a ks => exact key _ _ (by omega)
  | u4 a ks => exact key _ _ (by omega)
  | ileadCont x => exact key 1 (.error .invalidLeadByte) (by omega)
  | ileadF8 x => exact key 1 (.error .invalidLeadByte) (by omega)

/-- On readable bytes `NEXT` completes. -/
theorem nextUnit_completes {s : State} {bs : List Byte} (h : CursorHolds s bs) : ∃ t, nextUnit s = .next t := by
  cases bs with
  | nil =>
    have := h.length
    exact ⟨_, nextUnit_at_end (by simpa using this)⟩
  | cons b0 rest =>
    rw [nextUnit_of_cursor h]
    have hw : WellFormed (unitOf b0 rest).toInstr := by
      have := unitFrom_ok_cons (ε := Empty) b0 rest
      exact (unitFrom_read this).1
    rcases runUnit_cases (unitOf b0 rest) hw s with ⟨-, hv⟩ | ⟨-, k, hk⟩
    · exact ⟨_, hv⟩
    · exact ⟨_, hk⟩

/-- Where the buffer goes on with a well-formed unit, `NEXT` gives its value. -/
theorem nextUnit_wellFormed {s : State} {us rest : List Byte} (h : CursorHolds s (us ++ rest)) (hw : WellFormedUnit us) :
    nextUnit s = .next (afterValue s (unitNumber us) us.length) := by
  obtain ⟨u, hu, hb⟩ := decodeUnit_wellFormed hw rest
  have hpos := hw.length_pos
  rcases hus : us with _ | ⟨b0, ks⟩
  · simp [hus] at hpos
  · rw [hus] at h
    rw [hus, List.cons_append, decodeUnit_cons] at hu
    cases hu
    rw [nextUnit_of_cursor (rest := ks ++ rest) h]
    have hwf : WellFormed (unitOf b0 (ks ++ rest)).toInstr :=
      (unitFrom_read (unitFrom_ok_cons (ε := Empty) b0 (ks ++ rest))).1
    rcases runUnit_cases _ hwf s with ⟨-, hv⟩ | ⟨hn, -⟩
    · rw [hv, hb, hus]
    · exact absurd (hb ▸ hw) hn

end Sys2Proof.Machine
end

