-- ==== Sys2Proof/Laws/Buffer.lean ====
section
/-! SUPPORT. Laws/Buffer.lean: everything `SETBUF`, `SEEK` and `RESET` can do. -/

namespace Sys2Proof.Machine

/-- Loading bytes that fit writes them one after another and touches nothing else. -/
theorem loadBytes_fits (bs : List Byte) (s : State) (a : Nat) (h : a + bs.length ≤ s.bufCap) :
    loadBytes s a bs = .ok (s.withIbuf (Memory.writeFrom s.ibuf a bs)) := by
  induction bs generalizing s a with
  | nil => rfl
  | cons b bs ih =>
    simp only [List.length_cons] at h
    rw [loadBytes, ibufWrite, if_pos (by omega)]
    simp only
    rw [ih _ _ (by simp only [State.withIbuf_bufCap]; omega)]
    rfl

/-- `SETBUF` of too many bytes is refused (40_buffer_and_cursor.md R100). -/
theorem exec_setbuf_refused {bytes : List Byte} {s : State} (h : s.bufCap < bytes.length) :
    exec (.setbuf bytes) s = .refused .setbufTooLong := by
  change execSetbuf bytes s = _
  rw [execSetbuf, if_pos h]

/-- `SETBUF` of bytes that fit (40_buffer_and_cursor.md R100). -/
theorem exec_setbuf_fits {bytes : List Byte} {s : State} (h : bytes.length ≤ s.bufCap) :
    exec (.setbuf bytes) s = .next
      { s with ibuf := Memory.writeFrom s.ibuf 0 bytes, endPos := bytes.length, pos := 0, dStatus := .none, dCp := 0,
               dNcons := 0, ocnt := 0 } := by
  change execSetbuf bytes s = _
  rw [execSetbuf, if_neg (by omega), loadBytes_fits _ _ _ (by omega)]
  rfl

/-- `SEEK` beyond the end boundary is refused (40_buffer_and_cursor.md R101). -/
theorem exec_seek_refused {p : BitVec 32} {s : State} (h : s.endPos < p.toNat) :
    exec (.seek p) s = .refused .seekBeyondEnd := by
  change execSeek p s = _
  rw [execSeek, if_pos h]

/-- `SEEK` within the buffer (40_buffer_and_cursor.md R101). -/
theorem exec_seek_fits {p : BitVec 32} {s : State} (h : p.toNat ≤ s.endPos) :
    exec (.seek p) s = .next { s with pos := p.toNat, dStatus := .none, dCp := 0, dNcons := 0 } := by
  change execSeek p s = _
  rw [execSeek, if_neg (by omega)]
  rfl

/-- `RESET` (70_reset_and_hazards.md R190). -/
theorem exec_reset (x : BitVec 32) (s : State) :
    exec (.reset x) s = .next { State.resetAt s.bufCap with pending := s.pending } := rfl

/-- After a write of all valid bytes from index 0 on, the buffer holds them. -/
theorem bufferHolds_writeFrom {t : State} {m : Memory Byte} {bytes : List Byte}
    (hi : t.ibuf = Memory.writeFrom m 0 bytes) (he : t.endPos = bytes.length) (hc : t.endPos ≤ t.bufCap) :
    BufferHolds t bytes := by
  refine ⟨List.ext_getElem? fun k => ?_, hc⟩
  rw [getElem?_bufferBytes, List.getElem?_map, he]
  by_cases hk : k < bytes.length
  · have := Memory.read_writeFrom bytes m 0 hk
    rw [Nat.zero_add] at this
    rw [if_pos hk, List.getElem?_eq_getElem hk, hostReadIbuf, hi, this]
    rfl
  · rw [if_neg hk, List.getElem?_eq_none (by omega)]; rfl

/-- Valid bytes that all hold a value are some list of bytes. -/
theorem exists_bufferHolds {s : State} (hc : s.endPos ≤ s.bufCap) (h : ∀ a, a < s.endPos → (hostReadIbuf s a).isSome) :
    ∃ bs, BufferHolds s bs := by
  have key : ∀ n, (∀ a, a < n → (hostReadIbuf s a).isSome) →
      ∃ bs : List Byte, (List.range n).map (hostReadIbuf s) = bs.map some := by
    intro n
    induction n with
    | zero => exact fun _ => ⟨[], rfl⟩
    | succ n ih =>
      intro hn
      obtain ⟨bs, hbs⟩ := ih fun a ha => hn a (by omega)
      obtain ⟨b, hb⟩ := Option.isSome_iff_exists.1 (hn n (by omega))
      exact ⟨bs ++ [b], by rw [List.range_succ, List.map_append, hbs]; simp [hb]⟩
  obtain ⟨bs, hbs⟩ := key s.endPos h
  exact ⟨bs, hbs, hc⟩

/-- What the cursor holds of a buffer. -/
theorem cursorHolds_drop {s : State} {bs : List Byte} (h : BufferHolds s bs) (hp : s.pos ≤ s.endPos) :
    CursorHolds s (bs.drop s.pos) := by
  refine ⟨hp, h.2, ?_⟩
  rw [h.1, List.map_drop]

end Sys2Proof.Machine
end

