-- ==== Sys2Proof/Laws/DecodeLoop.lean ====
section
/-! SUPPORT. Laws/DecodeLoop.lean: everything the loop of `DECODE` can do. -/

namespace Sys2Proof.Machine

theorem appendValue_ok {s t : State} (h : appendValue s = .ok t) :
    s.ocnt < s.bufCap ∧ t = { s with obuf := Memory.write s.obuf s.ocnt s.dCp, ocnt := s.ocnt + 1 } := by
  unfold appendValue obufWrite at h
  split at h
  · cases h
  · rename_i t' ht
    split at ht
    · cases ht; cases h; exact ⟨by assumption, rfl⟩
    · cases ht

theorem appendValue_ne_loopBound (s : State) : appendValue s ≠ .error .loopBound := by
  unfold appendValue obufWrite
  split
  · rename_i hf
    intro h
    cases h
    split at hf <;> cases hf
  · intro h; cases h

/-- The loop's answer, whatever the state: it appends values to `OBUF` from `OCNT` on, moves the cursor and ends with a
status that is not `VALUE`, result registers cleared. -/
theorem decodeLoop_next {n : Nat} {s t : State} (h : decodeLoop n s = .next t) :
    ∃ cps : List Codepoint,
      t = { s with pos := t.pos, ocnt := s.ocnt + cps.length, obuf := Memory.writeFrom s.obuf s.ocnt cps,
                   dStatus := t.dStatus, dCp := 0, dNcons := 0 } ∧
      (t.dStatus = .endOfInput ∨ ∃ k, t.dStatus = .error k) ∧ s.pos ≤ t.pos ∧ cps.length ≤ t.pos - s.pos ∧
      (s.pos ≤ s.endPos → t.pos ≤ s.endPos) := by
  induction n generalizing s with
  | zero => cases h
  | succ n ih =>
    rw [decodeLoop] at h
    split at h
    · rename_i u hu
      split at h
      · rename_i hv
        split at h
        · rename_i u' hu'
          rcases nextUnit_cases hu with ⟨-, rfl⟩ | ⟨-, k, rfl⟩ | ⟨us, hw, hle, -, rfl⟩
          · cases hv
          · cases hv
          · obtain ⟨-, rfl⟩ := appendValue_ok hu'
            obtain ⟨cps, ht, hs, hp, hc, he⟩ := ih h
            have := hw.length_pos
            simp only at ht hp hc he
            refine ⟨BitVec.ofNat 32 (unitNumber us) :: cps, ?_, hs, by omega, by simp; omega, fun _ => he hle⟩
            rw [ht]
            simp only [List.length_cons, Memory.writeFrom]
            congr 1
            omega
        · cases h
      · rename_i hv
        cases h
        rcases nextUnit_cases hu with ⟨-, rfl⟩ | ⟨-, k, rfl⟩ | ⟨us, -, -, -, rfl⟩
        · exact ⟨[], rfl, .inl rfl, by simp, by simp, fun h => h⟩
        · exact ⟨[], rfl, .inr ⟨k, rfl⟩, by simp, by simp, fun h => h⟩
        · exact absurd rfl hv
    · cases h
    · cases h

/-- The loop never exceeds a bound of one more than the bytes left. -/
theorem decodeLoop_ne_loopBound {n : Nat} {s : State} (hp : s.pos ≤ s.endPos) (hn : s.endPos - s.pos < n) :
    decodeLoop n s ≠ .fault .loopBound := by
  induction n generalizing s with
  | zero => omega
  | succ n ih =>
    rw [decodeLoop]
    split
    · rename_i u hu
      split
      · rename_i hv
        split
        · rename_i u' hu'
          rcases nextUnit_cases hu with ⟨-, rfl⟩ | ⟨-, k, rfl⟩ | ⟨us, hw, hle, -, rfl⟩
          · cases hv
          · cases hv
          · obtain ⟨-, rfl⟩ := appendValue_ok hu'
            have := hw.length_pos
            exact ih hle (by simp only; omega)
        · rename_i f hf
          intro h
          cases h
          exact appendValue_ne_loopBound _ hf
      · intro h; cases h
    · rename_i f hf
      intro h
      cases h
      exact nextUnit_ne_loopBound s hf
    · intro h; cases h

theorem decodeLoop_ne_refused (n : Nat) (s : State) (r : Refusal) : decodeLoop n s ≠ .refused r := by
  induction n generalizing s with
  | zero => intro h; cases h
  | succ n ih =>
    rw [decodeLoop]
    split
    · split
      · split
        · exact ih _
        · intro h; cases h
      · intro h; cases h
    · intro h; cases h
    · rename_i hr
      intro h
      cases h
      exact nextUnit_ne_refused _ _ hr

/-- The loop on readable bytes: it completes, having consumed well-formed units up to the end or to a failing one. -/
theorem decodeLoop_readable {n : Nat} {s : State} {bs : List Byte} (h : CursorHolds s bs) (hn : bs.length < n)
    (ho : s.ocnt ≤ s.pos) :
    ∃ (t : State) (us : List (List Byte)) (rest : List Byte), decodeLoop n s = .next t ∧ (∀ u ∈ us, WellFormedUnit u) ∧
      bs = us.flatten ++ rest ∧
      t = { s with pos := s.pos + us.flatten.length, ocnt := s.ocnt + us.length,
                   obuf := Memory.writeFrom s.obuf s.ocnt (us.map unitCodepoint),
                   dStatus := t.dStatus, dCp := 0, dNcons := 0 } ∧
      ((rest = [] ∧ t.dStatus = .endOfInput) ∨
       (rest ≠ [] ∧ ∃ k, t.dStatus = .error k ∧
          ∀ s' : State, CursorHolds s' rest → nextUnit s' = .next (afterError s' k))) := by
  induction n generalizing s bs with
  | zero => omega
  | succ n ih =>
    obtain ⟨t, ht⟩ := nextUnit_completes h
    have hl := h.length
    rcases nextUnit_cases ht with ⟨hp, rfl⟩ | ⟨hp, k, rfl⟩ | ⟨us, hw, hle, hr, rfl⟩
    · have hb : bs = [] := List.length_eq_zero_iff.1 (by omega)
      subst hb
      refine ⟨_, [], [], by rw [decodeLoop, ht]; simp; rfl, by simp, rfl, by simp [Memory.writeFrom], .inl ⟨rfl, rfl⟩⟩
    · have hb : bs ≠ [] := fun hb => by subst hb; simp at hl; omega
      refine ⟨_, [], bs, by rw [decodeLoop, ht]; simp; rfl, by simp, rfl, by simp [Memory.writeFrom],
        .inr ⟨hb, k, rfl, fun s' hs' => ?_⟩⟩
      rcases bs with _ | ⟨b0, rest⟩
      · simp at hb
      · rw [nextUnit_of_cursor h] at ht
        rw [nextUnit_of_cursor hs']
        exact runUnit_error ht s'
    · have hpos := hw.length_pos
      have hcap := h.2.1
      have htake : bs = us ++ bs.drop us.length := by
        have : bs.take us.length = us := by
          apply List.ext_getElem
          · simp; omega
          · intro k h1 h2
            rw [List.getElem_take]
            have h3 := h.read (k := k) (by omega)
            rw [hr k h2] at h3
            exact (Option.some.inj h3).symm
        conv_lhs => rw [← List.take_append_drop us.length bs, this]
      have happ : appendValue (afterValue s (unitNumber us) us.length) =
          .ok { afterValue s (unitNumber us) us.length with
                obuf := Memory.write s.obuf s.ocnt (unitCodepoint us), ocnt := s.ocnt + 1 } := by
        unfold appendValue obufWrite
        rw [if_pos (by simp only; omega)]
        rfl
      have hadv : CursorHolds { afterValue s (unitNumber us) us.length with
          obuf := Memory.write s.obuf s.ocnt (unitCodepoint us), ocnt := s.ocnt + 1 } (bs.drop us.length) := by
        rw [htake] at h
        exact h.advance rfl rfl rfl rfl
      obtain ⟨t, uss, rest, hloop, hall, hflat, hT, hend⟩ := ih hadv (by simp; omega) (by simp only; omega)
      refine ⟨t, us :: uss, rest, ?_, ?_, ?_, ?_, hend⟩
      · rw [decodeLoop, ht]
        simp only [if_true, happ, hloop]
      · simpa using ⟨hw, hall⟩
      · rw [htake, hflat]; simp
      · rw [hT]
        simp only [List.map_cons, Memory.writeFrom, List.flatten_cons, List.length_append, List.length_cons]
        congr 1 <;> omega

/-- The decoded sequence of a state whose `OBUF` was written from 0 on. -/
theorem decodedSequence_writeFrom {t : State} {m : Memory Codepoint} {cps : List Codepoint}
    (ho : t.obuf = Memory.writeFrom m 0 cps) (hc : t.ocnt = cps.length) : decodedSequence t = cps.map some := by
  unfold decodedSequence hostReadObuf
  rw [ho, hc]
  apply List.ext_getElem
  · simp
  · intro k h1 h2
    simp only [List.length_map, List.length_range] at h1
    have := Memory.read_writeFrom cps m 0 h1
    simp only [Nat.zero_add] at this
    simp [this]

/-- The loop's answer is the answer of its last `NEXT`. -/
theorem decodeLoop_last {n : Nat} {s t : State} (h : decodeLoop n s = .next t) :
    ∃ u, nextUnit u = .next t ∧ t.dStatus ≠ .value := by
  induction n generalizing s with
  | zero => cases h
  | succ n ih =>
    rw [decodeLoop] at h
    split at h
    · rename_i u hu
      split at h
      · split at h
        · exact ih h
        · cases h
      · cases h; exact ⟨s, hu, by assumption⟩
    · cases h
    · cases h

theorem exec_decode (x : BitVec 32) (s : State) :
    exec (.decode x) s = decodeLoop (s.endPos + 1) ((s.withPos 0).withOcnt 0) := rfl

/-- `DECODE` on a readable buffer completes, having consumed well-formed units up to the end or to a failing one. -/
theorem exec_decode_readable {s : State} {bs : List Byte} (h : BufferHolds s bs) (x : BitVec 32) :
    ∃ (t : State) (us : List (List Byte)) (rest : List Byte), exec (.decode x) s = .next t ∧
      (∀ u ∈ us, WellFormedUnit u) ∧ bs = us.flatten ++ rest ∧
      t = { s with pos := us.flatten.length, ocnt := us.length, obuf := Memory.writeFrom s.obuf 0 (us.map unitCodepoint),
                   dStatus := t.dStatus, dCp := 0, dNcons := 0 } ∧
      ((rest = [] ∧ t.dStatus = .endOfInput) ∨
       (rest ≠ [] ∧ ∃ k, t.dStatus = .error k ∧
          ∀ s' : State, CursorHolds s' rest → nextUnit s' = .next (afterError s' k))) := by
  have hc : CursorHolds ((s.withPos 0).withOcnt 0) bs := cursorHolds_of_bufferHolds h rfl
  obtain ⟨t, us, rest, h1, h2, h3, h4, h5⟩ :=
    decodeLoop_readable (n := s.endPos + 1) hc (by rw [bufferHolds_length h]; omega) (by simp)
  refine ⟨t, us, rest, h1, h2, h3, ?_, h5⟩
  rw [h4]
  simp [State.withPos, State.withOcnt]

/-- A byte string is a sequence of well-formed units and a rest that begins with none in one way only. -/
theorem units_unique {us vs : List (List Byte)} {r r' : List Byte} (hu : ∀ u ∈ us, WellFormedUnit u)
    (hv : ∀ u ∈ vs, WellFormedUnit u) (h : us.flatten ++ r = vs.flatten ++ r')
    (hr : ∀ u rest, r = u ++ rest → ¬ WellFormedUnit u) (hr' : ∀ u rest, r' = u ++ rest → ¬ WellFormedUnit u) :
    us = vs ∧ r = r' := by
  have first : ∀ {a b x y : List Byte}, WellFormedUnit a → WellFormedUnit b → a ++ x = b ++ y → a = b ∧ x = y := by
    intro a b x y ha hb hab
    obtain ⟨u, h1, rfl⟩ := decodeUnit_wellFormed ha x
    obtain ⟨v, h3, rfl⟩ := decodeUnit_wellFormed hb y
    rw [hab, h3] at h1
    cases h1
    exact ⟨rfl, List.append_cancel_left hab⟩
  induction us generalizing vs with
  | nil =>
    cases vs with
    | nil => exact ⟨rfl, by simpa using h⟩
    | cons v vs => exact absurd (hv v (by simp)) (hr v (vs.flatten ++ r') (by simpa using h))
  | cons u us ih =>
    cases vs with
    | nil => exact absurd (hu u (by simp)) (hr' u (us.flatten ++ r) (by simpa using h.symm))
    | cons v vs =>
      simp only [List.flatten_cons, List.append_assoc] at h
      obtain ⟨rfl, h'⟩ := first (hu u (by simp)) (hv v (by simp)) h
      obtain ⟨rfl, rfl⟩ := ih (fun w hw => hu w (by simp [hw])) (fun w hw => hv w (by simp [hw])) h'
      exact ⟨rfl, rfl⟩

end Sys2Proof.Machine
end

