-- ==== Sys2Proof/Laws/Encoder.lean ====
section
/-! SUPPORT. Laws/Encoder.lean: the encoder's four arms on numbers, and the encoder against the table of well-formed units. -/

namespace Sys2Proof.Machine

/-! ## Bytes -/

theorem lead2_eq {x : Codepoint} (h : x.toNat < 32) :
    Config.lead2Mark ||| x.setWidth 8 = BitVec.ofNat 8 (0xC0 + x.toNat) := by
  have h5 : (x.setWidth 5).toNat = x.toNat := by rw [BitVec.toNat_setWidth, Nat.mod_eq_of_lt h]
  have hx : x.setWidth 8 = (x.setWidth 5).setWidth 8 := by
    apply BitVec.eq_of_toNat_eq; simp only [BitVec.toNat_setWidth]; omega
  rw [hx, ← h5, ← lead2_toNat, BitVec.ofNat_toNat, BitVec.setWidth_eq]

theorem lead3_eq {x : Codepoint} (h : x.toNat < 16) :
    Config.lead3Mark ||| x.setWidth 8 = BitVec.ofNat 8 (0xE0 + x.toNat) := by
  have h4 : (x.setWidth 4).toNat = x.toNat := by rw [BitVec.toNat_setWidth, Nat.mod_eq_of_lt h]
  have hx : x.setWidth 8 = (x.setWidth 4).setWidth 8 := by
    apply BitVec.eq_of_toNat_eq; simp only [BitVec.toNat_setWidth]; omega
  rw [hx, ← h4, ← lead3_toNat, BitVec.ofNat_toNat, BitVec.setWidth_eq]

theorem lead4_eq {x : Codepoint} (h : x.toNat < 8) :
    Config.lead4Mark ||| x.setWidth 8 = BitVec.ofNat 8 (0xF0 + x.toNat) := by
  have h3 : (x.setWidth 3).toNat = x.toNat := by rw [BitVec.toNat_setWidth, Nat.mod_eq_of_lt h]
  have hx : x.setWidth 8 = (x.setWidth 3).setWidth 8 := by
    apply BitVec.eq_of_toNat_eq; simp only [BitVec.toNat_setWidth]; omega
  rw [hx, ← h3, ← lead4_toNat, BitVec.ofNat_toNat, BitVec.setWidth_eq]

/-- A continuation byte carries the value modulo 64 (30_encoding.md R78). -/
theorem contByte_eq (x : Codepoint) : contByte x = BitVec.ofNat 8 (0x80 + x.toNat % 64) := by
  have key : ∀ y : BitVec 6, Config.contMark ||| y.setWidth 8 = BitVec.ofNat 8 (0x80 + y.toNat) := by decide
  have h6 : (x.setWidth 6).toNat = x.toNat % 64 := by rw [BitVec.toNat_setWidth]
  have hx : (x &&& 0x3F#32).setWidth 8 = (x.setWidth 6).setWidth 8 := by
    apply BitVec.eq_of_toNat_eq
    simp only [BitVec.toNat_setWidth, BitVec.toNat_and, BitVec.reduceToNat]
    rw [Nat.and_two_pow_sub_one_eq_mod x.toNat 6]
  rw [contByte, hx, key, h6]

theorem ushiftRight_toNat (x : Codepoint) (n : Nat) : (x >>> n).toNat = x.toNat / 2 ^ n := by
  rw [BitVec.toNat_ushiftRight, Nat.shiftRight_eq_div_pow]

/-! ## The arms (42_encoder.md R141 to R145) -/

theorem isSurrogate_iff (cp : Codepoint) : isSurrogate cp = true ↔ 0xD800 ≤ cp.toNat ∧ cp.toNat ≤ 0xDFFF := by
  simp [isSurrogate, BitVec.le_def, Config.surLo, Config.surHi]

theorem encodeResult_invalid {cp : Codepoint} (h : 0x10FFFF < cp.toNat ∨ (0xD800 ≤ cp.toNat ∧ cp.toNat ≤ 0xDFFF)) :
    encodeResult cp = ⟨.invalidCodepoint, 0, ⟨0, 0, 0, 0⟩⟩ := by
  rw [encodeResult, if_pos]
  rw [isSurrogate_iff, BitVec.lt_def]
  exact h

theorem encodeResult_valid {cp : Codepoint} (h : IsScalar cp) :
    encodeResult cp =
      if cp.toNat ≤ 0x7F then ⟨.ok, 1, pack1 cp⟩
      else if cp.toNat ≤ 0x7FF then ⟨.ok, 2, pack2 cp⟩
      else if cp.toNat ≤ 0xFFFF then ⟨.ok, 3, pack3 cp⟩
      else ⟨.ok, 4, pack4 cp⟩ := by
  rw [encodeResult, if_neg]
  · simp only [BitVec.le_def, BitVec.reduceToNat]
  · rw [isSurrogate_iff, BitVec.lt_def]
    simp only [Config.cpMax, BitVec.reduceToNat]
    omega

theorem pack1_eq (cp : Codepoint) : pack1 cp = ⟨BitVec.ofNat 8 cp.toNat, 0, 0, 0⟩ := by
  rw [pack1, BitVec.ofNat_toNat]

theorem pack2_eq {cp : Codepoint} (h : cp.toNat ≤ 0x7FF) :
    pack2 cp = ⟨BitVec.ofNat 8 (0xC0 + cp.toNat / 64), BitVec.ofNat 8 (0x80 + cp.toNat % 64), 0, 0⟩ := by
  have h6 : (cp >>> 6).toNat = cp.toNat / 64 := ushiftRight_toNat cp 6
  rw [pack2, lead2_eq (by omega), contByte_eq, h6]

theorem pack3_eq {cp : Codepoint} (h : cp.toNat ≤ 0xFFFF) :
    pack3 cp = ⟨BitVec.ofNat 8 (0xE0 + cp.toNat / 4096), BitVec.ofNat 8 (0x80 + cp.toNat / 64 % 64),
      BitVec.ofNat 8 (0x80 + cp.toNat % 64), 0⟩ := by
  have h6 : (cp >>> 6).toNat = cp.toNat / 64 := ushiftRight_toNat cp 6
  have h12 : (cp >>> 12).toNat = cp.toNat / 4096 := ushiftRight_toNat cp 12
  rw [pack3, lead3_eq (by omega), contByte_eq, contByte_eq, h6, h12]

theorem pack4_eq {cp : Codepoint} (h : cp.toNat ≤ 0x10FFFF) :
    pack4 cp = ⟨BitVec.ofNat 8 (0xF0 + cp.toNat / 262144), BitVec.ofNat 8 (0x80 + cp.toNat / 4096 % 64),
      BitVec.ofNat 8 (0x80 + cp.toNat / 64 % 64), BitVec.ofNat 8 (0x80 + cp.toNat % 64)⟩ := by
  have h6 : (cp >>> 6).toNat = cp.toNat / 64 := ushiftRight_toNat cp 6
  have h12 : (cp >>> 12).toNat = cp.toNat / 4096 := ushiftRight_toNat cp 12
  have h18 : (cp >>> 18).toNat = cp.toNat / 262144 := ushiftRight_toNat cp 18
  rw [pack4, lead4_eq (by omega), contByte_eq, contByte_eq, contByte_eq, h6, h12, h18]

/-! ## The encoder's bytes -/

/-- The valid bytes of an encoder result. -/
def EncResult.unit (r : EncResult) : List Byte := r.bytes.toList.take r.len.toNat

theorem ofNat8_toNat {n : Nat} (h : n < 256) : (BitVec.ofNat 8 n).toNat = n := by
  rw [BitVec.toNat_ofNat, Nat.mod_eq_of_lt h]

/-- What the encoder can answer: an invalid codepoint and nothing; or, for a scalar value, a well-formed unit of minimal
length that carries the value, the unused registers zero. -/
theorem encodeResult_cases (cp : Codepoint) :
    (¬ IsScalar cp ∧ encodeResult cp = ⟨.invalidCodepoint, 0, ⟨0, 0, 0, 0⟩⟩) ∨
    (IsScalar cp ∧ (encodeResult cp).status = .ok ∧ (encodeResult cp).len.toNat = minimalLength cp ∧
      (encodeResult cp).unit.length = minimalLength cp ∧ WellFormedUnit (encodeResult cp).unit ∧
      unitNumber (encodeResult cp).unit = cp.toNat ∧
      ∀ b ∈ (encodeResult cp).bytes.toList.drop (encodeResult cp).len.toNat, b = 0) := by
  by_cases hs : IsScalar cp
  · refine .inr ⟨hs, ?_⟩
    have hm : cp.toNat ≤ 0x10FFFF := by omega
    rw [encodeResult_valid hs]
    unfold minimalLength
    split_ifs with h1 h2 h3
    · rw [pack1_eq]
      refine ⟨rfl, rfl, rfl, ?_, ?_, by simp [EncBytes.toList]⟩ <;>
        simp only [EncResult.unit, EncBytes.toList, BitVec.reduceToNat, List.take_succ_cons, List.take_zero]
      · rw [wellFormed_one, ofNat8_toNat (by omega)]; exact h1
      · rw [unitNumber, ofNat8_toNat (by omega)]
    · rw [pack2_eq h2]
      refine ⟨rfl, rfl, rfl, ?_, ?_, by simp [EncBytes.toList]⟩ <;>
        simp only [EncResult.unit, EncBytes.toList, BitVec.reduceToNat, List.take_succ_cons, List.take_zero]
      · rw [wellFormed_two, IsCont, ofNat8_toNat (by omega), ofNat8_toNat (by omega)]; omega
      · rw [unitNumber, ofNat8_toNat (by omega), ofNat8_toNat (by omega)]; omega
    · rw [pack3_eq h3]
      refine ⟨rfl, rfl, rfl, ?_, ?_, by simp [EncBytes.toList]⟩ <;>
        simp only [EncResult.unit, EncBytes.toList, BitVec.reduceToNat, List.take_succ_cons, List.take_zero]
      · rw [wellFormed_three, IsCont, IsCont, ofNat8_toNat (by omega), ofNat8_toNat (by omega), ofNat8_toNat (by omega)]
        omega
      · rw [unitNumber, ofNat8_toNat (by omega), ofNat8_toNat (by omega), ofNat8_toNat (by omega)]; omega
    · rw [pack4_eq hm]
      refine ⟨rfl, rfl, rfl, ?_, ?_, by simp [EncBytes.toList]⟩ <;>
        simp only [EncResult.unit, EncBytes.toList, BitVec.reduceToNat, List.take_succ_cons, List.take_zero]
      · rw [wellFormed_four, IsCont, IsCont, IsCont, ofNat8_toNat (by omega), ofNat8_toNat (by omega),
          ofNat8_toNat (by omega), ofNat8_toNat (by omega)]
        omega
      · rw [unitNumber, ofNat8_toNat (by omega), ofNat8_toNat (by omega), ofNat8_toNat (by omega),
          ofNat8_toNat (by omega)]
        omega
  · exact .inl ⟨hs, encodeResult_invalid (by omega)⟩

/-- The number a well-formed unit carries tells its bytes. -/
theorem WellFormedUnit.eq_of_number {us vs : List Byte} (hu : WellFormedUnit us) (hv : WellFormedUnit vs)
    (h : unitNumber us = unitNumber vs) : us = vs := by
  have hl : us.length = vs.length := by rw [← hu.minimal.2, ← hv.minimal.2, unitCodepoint, unitCodepoint, h]
  have key : ∀ {a b : Byte}, a.toNat = b.toNat → a = b := fun h => BitVec.eq_of_toNat_eq h
  rcases hu.cases with ⟨b0, rfl⟩ | ⟨b0, b1, rfl⟩ | ⟨b0, b1, b2, rfl⟩ | ⟨b0, b1, b2, b3, rfl⟩ <;>
    rcases hv.cases with ⟨c0, rfl⟩ | ⟨c0, c1, rfl⟩ | ⟨c0, c1, c2, rfl⟩ | ⟨c0, c1, c2, c3, rfl⟩ <;>
    simp only [List.length] at hl <;> first | omega | skip
  · rw [key h]
  · have h1 := (wellFormed_two _ _).1 hu
    have h2 := (wellFormed_two _ _).1 hv
    simp only [unitNumber] at h
    rw [key (by omega : b0.toNat = c0.toNat), key (by omega : b1.toNat = c1.toNat)]
  · have h1 := (wellFormed_three _ _ _).1 hu
    have h2 := (wellFormed_three _ _ _).1 hv
    simp only [unitNumber] at h
    rw [key (by omega : b0.toNat = c0.toNat), key (by omega : b1.toNat = c1.toNat), key (by omega : b2.toNat = c2.toNat)]
  · have h1 := (wellFormed_four _ _ _ _).1 hu
    have h2 := (wellFormed_four _ _ _ _).1 hv
    simp only [unitNumber] at h
    rw [key (by omega : b0.toNat = c0.toNat), key (by omega : b1.toNat = c1.toNat), key (by omega : b2.toNat = c2.toNat),
      key (by omega : b3.toNat = c3.toNat)]

/-- Encoding the value of a well-formed unit gives the unit back. -/
theorem encodeResult_unitCodepoint {us : List Byte} (h : WellFormedUnit us) :
    (encodeResult (unitCodepoint us)).status = .ok ∧ (encodeResult (unitCodepoint us)).unit = us := by
  rcases encodeResult_cases (unitCodepoint us) with ⟨hn, -⟩ | ⟨-, hs, -, -, hw, hnum, -⟩
  · exact absurd h.minimal.1 hn
  · exact ⟨hs, hw.eq_of_number h (by rw [hnum, h.codepoint_toNat])⟩

/-! ## ENCODE -/

/-- `ENCODE` in every state (42_encoder.md R140). -/
theorem exec_encode (cp : Codepoint) (s : State) :
    exec (.encode cp) s = .next { s with eStatus := (encodeResult cp).status, eLen := (encodeResult cp).len,
                                         eB := (encodeResult cp).bytes } := rfl

theorem hostEncode_eq (s : State) (cp : Codepoint) :
    hostEncode s cp = if (encodeResult cp).status = .ok then some (encodeResult cp).unit else none := rfl

end Sys2Proof.Machine
end

