-- ==== Sys2Proof/Laws/Step.lean ====
section
/-! SUPPORT. Laws/Step.lean: decoding of commands, everything a step can do, and the round trip of the encoder. -/

namespace Sys2Proof

open Machine

/-! ## Commands -/

@[simp] theorem op_commandWord (op : BitVec 3) (arg : BitVec 32) (bs : List Byte) :
    HostCmd.op ⟨commandWord op arg, bs⟩ = op := by
  simp only [HostCmd.op, commandWord]
  apply BitVec.eq_of_toNat_eq
  have := op.isLt
  have := arg.isLt
  simp only [BitVec.extractLsb'_toNat, BitVec.toNat_append, Nat.shiftRight_eq_div_pow]
  rw [← Nat.shiftLeft_add_eq_or_of_lt (by omega), Nat.shiftLeft_eq]
  omega

@[simp] theorem arg_commandWord (op : BitVec 3) (arg : BitVec 32) (bs : List Byte) :
    HostCmd.arg ⟨commandWord op arg, bs⟩ = arg := by
  simp only [HostCmd.arg, commandWord]
  apply BitVec.eq_of_toNat_eq
  have := arg.isLt
  simp only [BitVec.toNat_setWidth, BitVec.toNat_append]
  rw [← Nat.shiftLeft_add_eq_or_of_lt (by omega), Nat.shiftLeft_eq]
  omega

/-- A command word is its `op` and its `arg`. -/
theorem commandWord_op_arg (c : HostCmd) : commandWord c.op c.arg = c.word := by
  apply BitVec.eq_of_toNat_eq
  have := c.word.isLt
  simp only [HostCmd.op, HostCmd.arg, commandWord, BitVec.toNat_append, BitVec.extractLsb'_toNat, BitVec.toNat_setWidth,
    Nat.shiftRight_eq_div_pow]
  rw [← Nat.shiftLeft_add_eq_or_of_lt (by omega), Nat.shiftLeft_eq]
  omega

/-- How a command decodes, by its `op` (30_encoding.md R88, R89). -/
theorem decodeCommand_eq (c : HostCmd) :
    decodeCommand c =
      if c.op = 1 then if c.payload.length = c.arg.toNat then .ok (.setbuf c.payload) else .error .payloadLength
      else if c.op = 2 then noPayload c (.seek c.arg)
      else if c.op = 3 then noPayload c (.next c.arg)
      else if c.op = 4 then noPayload c (.decode c.arg)
      else if c.op = 5 then noPayload c (.encode c.arg)
      else if c.op = 7 then noPayload c (.reset c.arg)
      else .error .unassignedOp := by
  unfold decodeCommand
  generalize c.op = op
  rcases (by revert op; decide : op = 0 ∨ op = 1 ∨ op = 2 ∨ op = 3 ∨ op = 4 ∨ op = 5 ∨ op = 6 ∨ op = 7) with
    h | h | h | h | h | h | h | h <;> subst h <;> rfl

/-- Which instructions commands stand for. -/
theorem decodeCommand_ok {c : HostCmd} {i : Instr} (h : decodeCommand c = .ok i) :
    (c.op = 1 ∧ c.payload.length = c.arg.toNat ∧ i = .setbuf c.payload) ∨
    (c.payload = [] ∧ ((c.op = 2 ∧ i = .seek c.arg) ∨ (c.op = 3 ∧ i = .next c.arg) ∨ (c.op = 4 ∧ i = .decode c.arg) ∨
      (c.op = 5 ∧ i = .encode c.arg) ∨ (c.op = 7 ∧ i = .reset c.arg))) := by
  rw [decodeCommand_eq] at h
  unfold noPayload at h
  split at h
  · split at h
    · cases h; exact .inl ⟨by assumption, by assumption, rfl⟩
    · cases h
  · right
    repeat' split at h
    all_goals first
      | (cases h; done)
      | (cases h; refine ⟨by assumption, ?_⟩; simp_all)

end Sys2Proof

namespace Sys2Proof.Machine

/-! ## A step -/

theorem step_idle {s : State} (h : s.pending = []) : step s = .next s := by
  rw [step, fetch, h]

theorem step_run {s : State} {c : HostCmd} {q : List HostCmd} {i : Instr} (h : s.pending = c :: q)
    (hd : decodeCommand c = .ok i) : step s = exec i (s.withPending q) := by
  rw [step, fetch, h]
  simp only [hd]

theorem step_rejected {s : State} {c : HostCmd} {q : List HostCmd} {r : CommandReject} (h : s.pending = c :: q)
    (hd : decodeCommand c = .error r) : step s = .refused (rejectedAs r) := by
  rw [step, fetch, h]
  simp only [hd]

/-- Everything a step can do: hold the state, refuse a command, or perform the oldest command's instruction. -/
theorem step_cases (s : State) :
    (s.pending = [] ∧ step s = .next s) ∨
    (∃ c q r, s.pending = c :: q ∧ decodeCommand c = .error r ∧ step s = .refused (rejectedAs r)) ∨
    ∃ c q i, s.pending = c :: q ∧ decodeCommand c = .ok i ∧ step s = exec i (s.withPending q) := by
  rcases hq : s.pending with _ | ⟨c, q⟩
  · exact .inl ⟨rfl, step_idle hq⟩
  · cases hd : decodeCommand c with
    | error r => exact .inr (.inl ⟨c, q, r, rfl, hd, step_rejected hq hd⟩)
    | ok i => exact .inr (.inr ⟨c, q, i, rfl, hd, step_run hq hd⟩)

/-- What exec refuses, and in which states (60_exceptions.md R172). -/
theorem exec_refused_iff {i : Instr} {s : State} {r : Refusal} :
    exec i s = .refused r ↔
      (∃ bs, i = .setbuf bs ∧ s.bufCap < bs.length ∧ r = .setbufTooLong) ∨
      (∃ p, i = .seek p ∧ s.endPos < p.toNat ∧ r = .seekBeyondEnd) := by
  cases i with
  | u1 v => simp [exec, execU1_eq]
  | u2 a ks => simp [exec, execU2_eq]
  | u3 a ks => simp [exec, execU3_eq]
  | u4 a ks => simp [exec, execU4_eq]
  | ileadCont x => simp [exec, execIleadCont, raiseKind]
  | ileadF8 x => simp [exec, execIleadF8, raiseKind]
  | next x => simp [nextUnit_ne_refused]
  | decode x => simp [exec_decode, decodeLoop_ne_refused]
  | encode x => simp [exec_encode]
  | reset x => simp [exec_reset]
  | setbuf bs =>
    by_cases h : s.bufCap < bs.length
    · rw [exec_setbuf_refused h]; simp [h, eq_comm]
    · rw [exec_setbuf_fits (by omega)]; simp [h]
  | seek p =>
    by_cases h : s.endPos < p.toNat
    · rw [exec_seek_refused h]; simp [h, eq_comm]
    · rw [exec_seek_fits (by omega)]; simp [h]

/-- The bytes placed by `placeUnit` are what the cursor holds, if they fit. -/
theorem cursorHolds_placeUnit (s : State) (bs : List Byte) (hc : s.pos + bs.length ≤ s.bufCap) :
    CursorHolds (s.placeUnit bs) bs := by
  refine cursorHolds_of_read (by simp [State.placeUnit]) (by simpa [State.placeUnit] using hc) fun k hk => ?_
  simp only [State.placeUnit, State.withEnd_ibuf, State.withIbuf_ibuf, State.withEnd_pos, State.withIbuf_pos]
  exact Memory.read_writeFrom bs s.ibuf s.pos hk

end Sys2Proof.Machine
end

