-- ==== Sys2Proof/Laws/PerInstr.lean ====
section
/-! SUPPORT. Laws/PerInstr.lean: laws stated of every instruction as syntax, one lemma per constructor. -/

namespace Sys2Proof.Laws.FixedBits

open Sys2Proof

/-- The encoding carries the fixed bits of the instruction's row of spec/opcode_table.json: of the lead byte for a unit (a
form that fails at a continuation position has no marker there), of the 35-bit word for a command. -/
def Carries (mask pattern : Nat) : Encoded → Prop
  | .unit bs => ∃ b ks, bs = b :: ks ∧ b.toNat &&& mask = pattern
  | .command c => c.word.toNat &&& mask = pattern

/-- The mask and the pattern of each row, a unit's cut to its lead byte. -/
def row : Instr → Nat × Nat
  | .u1 _ => (0x80, 0x00)
  | .u2 _ _ => (0xE0, 0xC0)
  | .u3 _ _ => (0xF0, 0xE0)
  | .u4 _ _ => (0xF8, 0xF0)
  | .ileadCont _ => (0xC0, 0x80)
  | .ileadF8 _ => (0xF8, 0xF8)
  | .setbuf _ => (0x700000000, 0x100000000)
  | .seek _ => (0x700000000, 0x200000000)
  | .next _ => (0x700000000, 0x300000000)
  | .decode _ => (0x700000000, 0x400000000)
  | .encode _ => (0x700000000, 0x500000000)
  | .reset _ => (0x700000000, 0x700000000)

def Statement (i : Instr) : Prop := Carries (row i).1 (row i).2 (encode i)

theorem command (op : BitVec 3) (arg : BitVec 32) (bs : List Byte) :
    Carries 0x700000000 (op.toNat * 2 ^ 32) (.command ⟨commandWord op arg, bs⟩) := by
  have ha := arg.isLt
  have ho := op.isLt
  have h : (commandWord op arg).toNat = op.toNat * 2 ^ 32 + arg.toNat := by
    rw [commandWord, BitVec.toNat_append, ← Nat.shiftLeft_add_eq_or_of_lt ha, Nat.shiftLeft_eq]
  change (commandWord op arg).toNat &&& 0x700000000 = _
  rw [h]
  apply Nat.eq_of_testBit_eq
  intro i
  rw [Nat.testBit_and, Nat.mul_comm, Nat.testBit_two_pow_mul_add _ ha, Nat.testBit_two_pow_mul,
    show 0x700000000 = 2 ^ 32 * (2 ^ 3 - 1) by rfl, Nat.testBit_two_pow_mul, Nat.testBit_two_pow_sub_one]
  by_cases hi : i < 32
  · simp [hi, Nat.not_le.2 hi]
  · simp only [hi, if_false, Nat.not_lt.1 hi, decide_true, Bool.true_and]
    by_cases h3 : i - 32 < 3
    · simp [h3]
    · have : op.toNat < 2 ^ (i - 32) := Nat.lt_of_lt_of_le ho (Nat.pow_le_pow_right (by decide) (Nat.not_lt.1 h3))
      simp [h3, Nat.testBit_lt_two_pow this]

theorem u1 (v : BitVec 7) : Statement (.u1 v) := ⟨_, [], rfl, by revert v; decide⟩

theorem u2 (a : BitVec 5) (ks : List Byte) : Statement (.u2 a ks) := ⟨_, ks, rfl, by simp only [row]; revert a; decide⟩

theorem u3 (a : BitVec 4) (ks : List Byte) : Statement (.u3 a ks) := ⟨_, ks, rfl, by simp only [row]; revert a; decide⟩

theorem u4 (a : BitVec 3) (ks : List Byte) : Statement (.u4 a ks) := ⟨_, ks, rfl, by simp only [row]; revert a; decide⟩

theorem ileadCont (x : BitVec 6) : Statement (.ileadCont x) := ⟨_, [], rfl, by revert x; decide⟩

theorem ileadF8 (x : BitVec 3) : Statement (.ileadF8 x) := ⟨_, [], rfl, by revert x; decide⟩

theorem setbuf (bytes : List Byte) : Statement (.setbuf bytes) := command 1 _ _

theorem seek (p : BitVec 32) : Statement (.seek p) := command 2 _ _

theorem next (x : BitVec 32) : Statement (.next x) := command 3 _ _

theorem decode (x : BitVec 32) : Statement (.decode x) := command 4 _ _

theorem encode (cp : Codepoint) : Statement (.encode cp) := command 5 _ _

theorem reset (x : BitVec 32) : Statement (.reset x) := command 7 _ _

end Sys2Proof.Laws.FixedBits
end

