-- ==== Sys2Proof/Tests/Slice0.lean ====
section
/-! SUPPORT. Tests/Slice0.lean: the model's own tests. Expected results are from spec/95_test_vectors.md and from the examples and
corner cases in the rules named; words are written out from 30_encoding.md. After them, for every statement of
Certificates/Slice0/Obligations.lean with hypotheses, a witness that meets them, clause by clause at boundary values. -/

namespace Sys2Proof.Tests

open Sys2Proof.Machine

/-! ## Helpers -/

/-- An instance of capacity 8 that holds `bytes`, cursor at `p`. -/
def holding (bytes : List Byte) (p : Nat := 0) : State :=
  { State.resetAt 8 with ibuf := Memory.writeFrom [] 0 bytes, endPos := bytes.length, pos := p }

/-- What a transaction leaves in the decoder's registers, if it completes. -/
def decoderAfter : Result → Option (DStatus × Nat × Nat × Nat)
  | .next t => some (t.dStatus, t.dCp.toNat, t.dNcons.toNat, t.pos)
  | _ => none

/-- What a transaction leaves in the encoder's registers, if it completes. -/
def encoderAfter : Result → Option (EStatus × Nat × EncBytes)
  | .next t => some (t.eStatus, t.eLen.toNat, t.eB)
  | _ => none

/-- What `DECODE` leaves: the status, the cursor and the decoded sequence. -/
def decodedAfter : Result → Option (DStatus × Nat × List (Option Codepoint))
  | .next t => some (t.dStatus, t.pos, decodedSequence t)
  | _ => none

/-- What a transaction leaves in the input buffer, and `OCNT`. -/
def bufferAfter : Result → Option (List (Option Byte) × Nat)
  | .next t => some (bufferBytes t, t.ocnt)
  | _ => none

/-- The refusal of a transaction. -/
def refusalOf : Result → Option Refusal
  | .refused r => some r
  | _ => none

/-- A state in which every register and both memories hold something, with a transaction pending. -/
def sample : State :=
  { State.resetAt 8 with
    ibuf := [(0, 0x41), (1, 0xE2), (2, 0x82), (3, 0xAC), (4, 0xC2)], endPos := 5, pos := 1, dStatus := .value, dCp := 0x41,
    dNcons := 1, obuf := [(0, 0x41), (1, 0x20AC)], ocnt := 2, eStatus := .ok, eLen := 2, eB := ⟨0xC2, 0xA2, 0, 0⟩,
    pending := [nextCmd] }

/-! ## WellFormed: one ill-formed term for each check -/

theorem test_wf_u2_has_one_position : ¬ WellFormed (.u2 2 [0x80, 0x80]) := by decide
theorem test_wf_u3_has_two_positions : ¬ WellFormed (.u3 2 [0x80, 0x80, 0x80]) := by decide
theorem test_wf_u4_has_three_positions : ¬ WellFormed (.u4 2 [0x80, 0x80, 0x80, 0x80]) := by decide
theorem test_wf_u3_stops_at_unmarked : ¬ WellFormed (.u3 2 [0x41, 0x80]) := by decide
theorem test_wf_u4_stops_at_unmarked : ¬ WellFormed (.u4 2 [0x80, 0xC0, 0x80]) := by decide
theorem test_wf_setbuf_length_fits_arg (n : Nat) (h : n = 2 ^ 32) : ¬ WellFormed (.setbuf (List.replicate n 0)) := by
  simp only [WellFormed, wellFormed, List.length_replicate, Config.bufCapMax, decide_eq_true_eq]
  omega
theorem test_wf_accepts_short_forms : WellFormed (.u4 2 []) ∧ WellFormed (.u4 2 [0x80, 0x41]) ∧ WellFormed (.u2 2 [0x41]) := by
  decide

/-! ## Decoding: words written out bit by bit (R71 to R74, R76, R88) -/

theorem test_decode_u1 : decodeTableWord 8 0b01000001 = some (.u1 0x41) := by decide
theorem test_decode_u2 : decodeTableWord 16 0b1101111110111111 = some (.u2 0x1F [0xBF]) := by decide
theorem test_decode_u3 : decodeTableWord 24 0b111011011001010110011100 = some (.u3 0xD [0x95, 0x9C]) := by decide
theorem test_decode_u4 : decodeTableWord 32 0b11110000100100001000110110001000 = some (.u4 0 [0x90, 0x8D, 0x88]) := by decide
theorem test_decode_u4_stops_at_unmarked : decodeTableWord 32 0xF0904188 = some (.u4 0 [0x90, 0x41]) := by decide
theorem test_decode_u3_short : decode (.unit [0xE2, 0x82]) = .ok (.u3 2 [0x82]) := by decide
theorem test_decode_ileadCont : decodeTableWord 8 0b10111111 = some (.ileadCont 0x3F) := by decide
theorem test_decode_ileadF8 : decodeTableWord 8 0b11111111 = some (.ileadF8 7) := by decide
theorem test_decode_setbuf :
    decode (.command ⟨0b00100000000000000000000000000000010#35, [0xC2, 0xA2]⟩) = .ok (.setbuf [0xC2, 0xA2]) := by decide
theorem test_decode_seek : decodeTableWord 40 0b01000000000000000000000000000000011 = some (.seek 3) := by decide
theorem test_decode_next : decodeTableWord 40 0b01100000000000000000000000000000000 = some (.next 0) := by decide
theorem test_decode_decode : decodeTableWord 40 0b10000000000000000000000000000000000 = some (.decode 0) := by decide
theorem test_decode_encode : decodeTableWord 40 0b10100000000000000000010000010101100 = some (.encode 0x20AC) := by decide
theorem test_decode_reset : decodeTableWord 40 0b11100000000000000000000000000000000 = some (.reset 0) := by decide
theorem test_decode_unassigned : decodeTableWord 40 0 = none ∧ decodeTableWord 40 0x600000000 = none := by decide
theorem test_decode_payload_length : decode (.command ⟨0x100000002#35, [0xC2]⟩) = .error (.command .payloadLength) := by decide
theorem test_decode_no_byte : decode (.unit []) = .error .noByte := by decide
theorem test_encode_command : encode (.seek 5) = .command ⟨0x200000005#35, []⟩ := by decide
theorem test_encode_unit : encode (.u3 0xD [0x95, 0x9C]) = .unit [0xED, 0x95, 0x9C] := by decide

/-! ## One step of each instruction -/

/-- R112: `0x7F`. -/
theorem test_u1 : decoderAfter (exec (.next 0) (holding [0x7F])) = some (.value, 0x7F, 1, 1) := by decide
/-- R113: `DF BF` is `0x7FF`. -/
theorem test_u2_largest : decoderAfter (exec (.next 0) (holding [0x41, 0xDF, 0xBF] 1)) = some (.value, 0x7FF, 2, 3) := by decide
/-- R113: `C1 BF` is overlong. -/
theorem test_u2_overlong : decoderAfter (exec (.next 0) (holding [0xC1, 0xBF])) = some (.error .overlongEncoding, 0, 0, 0) := by
  decide
/-- R114: `ED 9F BF` is `0xD7FF`. -/
theorem test_u3_below_surrogates : decoderAfter (exec (.next 0) (holding [0xED, 0x9F, 0xBF])) = some (.value, 0xD7FF, 3, 3) := by
  decide
/-- R164: `E2 41` at the end of the buffer is an invalid continuation, not truncated. -/
theorem test_u3_unmarked_first :
    decoderAfter (exec (.next 0) (holding [0xE2, 0x41])) = some (.error .invalidContinuationByte, 0, 0, 0) := by decide
/-- R115: `F4 8F BF BF` is `0x10FFFF`. -/
theorem test_u4_largest : decoderAfter (exec (.next 0) (holding [0xF4, 0x8F, 0xBF, 0xBF])) = some (.value, 0x10FFFF, 4, 4) := by
  decide
/-- R115: `F0 8D A0 80` is overlong, although its value is a surrogate. -/
theorem test_u4_overlong_before_surrogate :
    decoderAfter (exec (.next 0) (holding [0xF0, 0x8D, 0xA0, 0x80])) = some (.error .overlongEncoding, 0, 0, 0) := by decide
/-- R116: `IBUF = 41 80 42`, `POS = 1`. -/
theorem test_ileadCont :
    decoderAfter (exec (.next 0) (holding [0x41, 0x80, 0x42] 1)) = some (.error .invalidLeadByte, 0, 0, 1) := by decide
/-- R116: `F8 88 80 80 80`. -/
theorem test_ileadF8 :
    decoderAfter (exec (.next 0) (holding [0xF8, 0x88, 0x80, 0x80, 0x80])) = some (.error .invalidLeadByte, 0, 0, 0) := by decide
/-- R111: `END = 2`, `POS = 2`. -/
theorem test_next_at_end : decoderAfter (exec (.next 0) (holding [0xC2, 0xA2] 2)) = some (.endOfInput, 0, 0, 2) := by decide
/-- R120: `48 69 F0 9F 98 80`. -/
theorem test_decode_whole :
    decodedAfter (exec (.decode 0) (holding [0x48, 0x69, 0xF0, 0x9F, 0x98, 0x80] 3)) =
      some (.endOfInput, 6, [some 0x48, some 0x69, some 0x1F600]) := by decide
/-- R122: `41 C2 A2 E2 82`. -/
theorem test_decode_failure :
    decodedAfter (exec (.decode 0) (holding [0x41, 0xC2, 0xA2, 0xE2, 0x82])) =
      some (.error .truncated, 3, [some 0x41, some 0xA2]) := by decide
/-- R145: `ENCODE 0x10348`. -/
theorem test_encode_four : encoderAfter (exec (.encode 0x10348) State.reset) = some (.ok, 4, ⟨0xF0, 0x90, 0x8D, 0x88⟩) := by
  decide
/-- R141: `ENCODE 0xD800`. -/
theorem test_encode_surrogate : encoderAfter (exec (.encode 0xD800) sample) = some (.invalidCodepoint, 0, ⟨0, 0, 0, 0⟩) := by
  decide
/-- R100: `SETBUF C2 A2`. -/
theorem test_setbuf :
    bufferAfter (exec (.setbuf [0xC2, 0xA2]) sample) = some ([some 0xC2, some 0xA2], 0) ∧
    decoderAfter (exec (.setbuf [0xC2, 0xA2]) sample) = some (.none, 0, 0, 0) := by decide
/-- R100: one byte more than `BUF_CAP`. -/
theorem test_setbuf_too_long : refusalOf (exec (.setbuf [0, 1, 2]) (State.resetAt 2)) = some .setbufTooLong := by decide
/-- R101: with `END = 5`, `SEEK 3`; `SEEK 6` is refused. -/
theorem test_seek : decoderAfter (exec (.seek 3) sample) = some (.none, 0, 0, 3) := by decide
theorem test_seek_refused : refusalOf (exec (.seek 6) sample) = some .seekBeyondEnd := by decide
/-- R190: the registers, from a state in which none is zero. -/
theorem test_reset :
    decoderAfter (exec (.reset 0) sample) = some (.none, 0, 0, 0) ∧
    encoderAfter (exec (.reset 0) sample) = some (.none, 0, ⟨0, 0, 0, 0⟩) := by decide
/-- R89: an unassigned code is refused. -/
theorem test_step_unassigned : refusalOf (step { sample with pending := [⟨0x612345678#35, []⟩] }) = some .unassignedOp := by decide

/-! ## Witnesses of the statements' hypotheses -/

/-- `Inv`: a state that holds something everywhere. -/
theorem witness_inv : Inv sample where
  capPos := by decide
  capMax := by decide
  posLe := by decide
  endLe := by decide
  ocntLe := by decide
  ibufWf := by decide
  obufWf := by decide
  ibufRange := by decide
  obufRange := by decide
  ibufValid := by decide
  obufValid := by decide
  decoder := by decide
  encoder := by decide

/-- `DecodeOfEncodeGivesInstructionBack`: the shortest and the longest form. -/
theorem witness_decodeOfEncode : WellFormed (.u4 7 []) ∧ WellFormed (.u4 0 [0x90, 0x8D, 0x88]) ∧ WellFormed (.setbuf []) := by
  decide

/-- `CommandWordHasOneMeaning`, `StepRunsDecodedCommand`: the pending command decodes. -/
theorem witness_command :
    sample.pending = nextCmd :: [] ∧ decodeCommand nextCmd = .ok (.next 0) ∧
    decodeCommand ⟨0x100000001#35, [0x41]⟩ = .ok (.setbuf [0x41]) := by decide

/-- `UnitEncodingIsPrefixOfBytes`. -/
theorem witness_unit : decodeUnit [0xE2, 0x82, 0xAC, 0x41] = some (.u3 2 [0x82, 0xAC]) := by decide

/-- `LeadByteAloneTellsTheForm`: both ends of every range. -/
theorem witness_lead_ranges :
    [(0x00 : Byte), 0x7F, 0x80, 0xBF, 0xC0, 0xDF, 0xE0, 0xEF, 0xF0, 0xF7, 0xF8, 0xFF].map (fun b => decodeUnit [b]) =
      [some (.u1 0), some (.u1 0x7F), some (.ileadCont 0), some (.ileadCont 0x3F), some (.u2 0 []), some (.u2 0x1F []),
       some (.u3 0 []), some (.u3 0xF []), some (.u4 0 []), some (.u4 7 []), some (.ileadF8 0), some (.ileadF8 7)] := by decide

/-- `CommandCodesSelectTransactions`: a payload of 0 and of 1 byte; a pending command of each unassigned code. -/
theorem witness_codes :
    ([] : List Byte).length < 2 ^ 32 ∧ [(0x41 : Byte)].length < 2 ^ 32 ∧
    ({ sample with pending := [⟨0b000#3 ++ 5#32, []⟩] } : State).pending = ⟨0b000#3 ++ 5#32, []⟩ :: [] ∧
    ({ sample with pending := [⟨0b110#3 ++ 5#32, [1]⟩] } : State).pending = ⟨0b110#3 ++ 5#32, [1]⟩ :: [] := by decide

/-- `NextRunsUnitAtCursor` and the `…ExactlyWhen` statements: bytes at the cursor, a unit they begin with, and no bytes. -/
theorem witness_cursor :
    CursorHolds sample [0xE2, 0x82, 0xAC, 0xC2] ∧ decodeUnit [0xE2, 0x82, 0xAC, 0xC2] = some (.u3 2 [0x82, 0xAC]) ∧
    CursorHolds (holding [0xC2, 0xA2] 2) [] := by decide

/-- `IdleStepHoldsState`. -/
theorem witness_idle : State.reset.pending = [] := by decide

/-- `StepRunsPlacedTableWord`: a unit that just fits, and a command. -/
theorem witness_placed :
    decodeTableWord 32 0xF0908D88 = some (.u4 0 [0x90, 0x8D, 0x88]) ∧
    (32 ≤ 32 → (State.resetAt 4).pos + (32 + 7) / 8 ≤ (State.resetAt 4).bufCap) ∧
    decodeTableWord 40 0x5000020AC = some (.encode 0x20AC) := by decide

/-- `U1ReturnsItsByte`: both ends of the range. -/
theorem witness_u1 :
    CursorHolds (holding [0x00]) [0x00] ∧ CursorHolds (holding [0x7F, 0xC2]) [0x7F, 0xC2] ∧ (0x7F#8).toNat ≤ 0x7F := by decide

/-- `U2FollowsItsRule`: the neighbours of the continuation range, both ends of the lead range, and the last overlong lead. -/
theorem witness_u2 :
    (¬ IsCont 0x7F ∧ IsCont 0x80 ∧ IsCont 0xBF ∧ ¬ IsCont 0xC0) ∧
    CursorHolds (holding [0xC0]) [0xC0] ∧ CursorHolds (holding [0xC1, 0xBF]) [0xC1, 0xBF] ∧
    CursorHolds (holding [0xDF, 0xBF]) [0xDF, 0xBF] ∧ (0xC0 ≤ (0xDF#8).toNat ∧ (0xDF#8).toNat ≤ 0xDF) := by decide

/-- `U3FollowsItsRule`: both ends of the lead range, and both sides of the overlong and surrogate bounds. -/
theorem witness_u3 :
    CursorHolds (holding [0xE0, 0x9F, 0x80]) [0xE0, 0x9F, 0x80] ∧ CursorHolds (holding [0xE0, 0xA0, 0x80]) [0xE0, 0xA0, 0x80] ∧
    CursorHolds (holding [0xED, 0x9F, 0xBF]) [0xED, 0x9F, 0xBF] ∧ CursorHolds (holding [0xED, 0xA0, 0x80]) [0xED, 0xA0, 0x80] ∧
    CursorHolds (holding [0xEF]) [0xEF] ∧ (0xE0 ≤ (0xE0#8).toNat ∧ (0xEF#8).toNat ≤ 0xEF) := by decide

/-- `U4FollowsItsRule`: both ends of the lead range, and both sides of the overlong and out-of-range bounds. -/
theorem witness_u4 :
    CursorHolds (holding [0xF0, 0x8F, 0xBF, 0xBF]) [0xF0, 0x8F, 0xBF, 0xBF] ∧
    CursorHolds (holding [0xF0, 0x90, 0x80, 0x80]) [0xF0, 0x90, 0x80, 0x80] ∧
    CursorHolds (holding [0xF4, 0x8F, 0xBF, 0xBF]) [0xF4, 0x8F, 0xBF, 0xBF] ∧
    CursorHolds (holding [0xF4, 0x90, 0x80, 0x80]) [0xF4, 0x90, 0x80, 0x80] ∧
    CursorHolds (holding [0xF5]) [0xF5] ∧ CursorHolds (holding [0xF7, 0xBF, 0x41]) [0xF7, 0xBF, 0x41] ∧
    (0xF0 ≤ (0xF0#8).toNat ∧ (0xF7#8).toNat ≤ 0xF7) := by decide

/-- `InvalidLeadsReportInvalidLeadByte`: the ends of both ranges, and their neighbours outside. -/
theorem witness_invalid_leads :
    IsInvalidLead 0x80 ∧ IsInvalidLead 0xBF ∧ IsInvalidLead 0xF8 ∧ IsInvalidLead 0xFF ∧ ¬ IsInvalidLead 0x7F ∧
    ¬ IsInvalidLead 0xC0 ∧ ¬ IsInvalidLead 0xF7 ∧ CursorHolds (holding [0xF8]) [0xF8] ∧
    CursorHolds (holding [0x80, 0x41]) [0x80, 0x41] := by decide

/-- `NextReportsEndOnlyAtEnd`. -/
theorem witness_end :
    State.reset.pos = State.reset.endPos ∧ ∃ t, exec (.next 0) State.reset = .next t ∧ t.dStatus = .endOfInput :=
  ⟨rfl, _, rfl, rfl⟩

/-- `NextIsTotalAndReadsItsWindowOnly`: two states that differ outside the window and in every register `NEXT` writes. -/
theorem witness_window :
    let s := holding [0xF0, 0x90, 0x8D, 0x88, 0x41]
    let s' := { holding [0xF0, 0x90, 0x8D, 0x88, 0x42] with dStatus := .value, dCp := 7, dNcons := 1 }
    s.endPos ≤ s.bufCap ∧ s'.endPos ≤ s'.bufCap ∧ s.pos = s'.pos ∧ s.endPos = s'.endPos ∧
    (∀ k, k < 4 → s.pos + k < s.endPos → hostReadIbuf s (s.pos + k) = hostReadIbuf s' (s.pos + k)) ∧
    (decoderAfter (exec (.next 0) s)).isSome ∧ (decoderAfter (exec (.next 1) s')).isSome := by decide

/-- The right sides of `TruncatedExactlyWhen` (one byte missing), `InvalidContinuationExactlyWhen` (the last position),
`InvalidLeadExactlyWhen`, `OverlongExactlyWhen` and `SurrogateAndOutOfRangeExactlyWhen`. -/
theorem witness_kinds :
    (IsLeadOf 4 0xF0 ∧ [(0xF0 : Byte), 0x90, 0x8D].length < 4 ∧ ∀ k ∈ [(0x90 : Byte), 0x8D], IsCont k) ∧
    (IsLeadOf 4 0xF0 ∧ [(0x90 : Byte), 0x8D].length + 1 < 4 ∧ ¬ IsCont 0x41) ∧ IsInvalidLead 0xF8 ∧
    (IsMarkedUnit [0xC1, 0xBF] ∧ unitNumber [0xC1, 0xBF] = 0x7F) ∧
    (IsMarkedUnit [0xE0, 0x9F, 0xBF] ∧ unitNumber [0xE0, 0x9F, 0xBF] = 0x7FF) ∧
    (IsMarkedUnit [0xF0, 0x8F, 0xBF, 0xBF] ∧ unitNumber [0xF0, 0x8F, 0xBF, 0xBF] = 0xFFFF) ∧
    (IsMarkedUnit [0xED, 0xA0, 0x80] ∧ unitNumber [0xED, 0xA0, 0x80] = 0xD800) ∧
    (IsMarkedUnit [0xED, 0xBF, 0xBF] ∧ unitNumber [0xED, 0xBF, 0xBF] = 0xDFFF) ∧
    (IsMarkedUnit [0xF4, 0x90, 0x80, 0x80] ∧ unitNumber [0xF4, 0x90, 0x80, 0x80] = 0x110000) :=
  ⟨by decide, by decide, by decide, ⟨⟨by decide, by decide⟩, by decide⟩, ⟨⟨by decide, by decide⟩, by decide⟩,
    ⟨⟨by decide, by decide⟩, by decide⟩, ⟨⟨by decide, by decide⟩, by decide⟩, ⟨⟨by decide, by decide⟩, by decide⟩,
    ⟨by decide, by decide⟩, by decide⟩

/-- `NextDecodesExactlyWellFormedUnits`: the two ends of every row of R86, and a marked unit that matches none. -/
theorem witness_rows :
    (∀ us ∈ ([[0x00], [0x7F], [0xC2, 0x80], [0xDF, 0xBF], [0xE0, 0xA0, 0x80], [0xE0, 0xBF, 0xBF], [0xE1, 0x80, 0x80],
        [0xEC, 0xBF, 0xBF], [0xED, 0x80, 0x80], [0xED, 0x9F, 0xBF], [0xEE, 0x80, 0x80], [0xEF, 0xBF, 0xBF],
        [0xF0, 0x90, 0x80, 0x80], [0xF0, 0xBF, 0xBF, 0xBF], [0xF1, 0x80, 0x80, 0x80], [0xF3, 0xBF, 0xBF, 0xBF],
        [0xF4, 0x80, 0x80, 0x80], [0xF4, 0x8F, 0xBF, 0xBF]] : List (List Byte)), WellFormedUnit us) ∧
    IsMarkedUnit [0xC1, 0xBF] ∧ ¬ WellFormedUnit [0xC1, 0xBF] := by decide

/-- `ValueIsMinimalScalarAndReencodes`, `NextAndUnitsFrame`, `StatusesOfEachTransaction`, `OnlyTheirTransactionsWriteBuffers`:
a `NEXT` that completes with a value. -/
theorem witness_value : ∃ t, exec (.next 0) sample = .next t ∧ t.dStatus = .value := ⟨_, rfl, rfl⟩

/-- `NextAndUnitsFrame`: a unit class, none of the five transactions. -/
theorem witness_unit_class :
    (∀ bytes, Instr.u2 2 [0x80] ≠ .setbuf bytes) ∧ (∀ p, Instr.u2 2 [0x80] ≠ .seek p) ∧
    (∀ x, Instr.u2 2 [0x80] ≠ .decode x) ∧ (∀ cp, Instr.u2 2 [0x80] ≠ .encode cp) ∧ (∀ x, Instr.u2 2 [0x80] ≠ .reset x) ∧
    ∃ t, exec (.u2 2 [0x80]) sample = .next t := by
  refine ⟨?_, ?_, ?_, ?_, ?_, _, rfl⟩ <;> intro _ h <;> cases h

/-- `FailureCompletionIsPrecise`, `NextRepeatsNonValueResult`: a failing `NEXT` and a failing `DECODE`. -/
theorem witness_failure :
    (∃ t, exec (.next 0) (holding [0xE2, 0x82]) = .next t ∧ t.dStatus = .error .truncated ∧ t.dStatus ≠ .value) ∧
    ∃ t, exec (.decode 0) (holding [0x41, 0xE2, 0x82]) = .next t ∧ t.dStatus = .error .truncated :=
  ⟨⟨_, rfl, rfl, by decide⟩, _, rfl, rfl⟩

/-- The `DECODE` statements over `BufferHolds`: the empty buffer, a well-formed one, a failing one. -/
theorem witness_buffer :
    BufferHolds State.reset [] ∧ BufferHolds (holding [0x41, 0xC2, 0xA2]) [0x41, 0xC2, 0xA2] ∧
    BufferHolds sample [0x41, 0xE2, 0x82, 0xAC, 0xC2] ∧ WellFormedUnit [0x41] ∧ WellFormedUnit [0xC2, 0xA2] ∧
    [(0x41 : Byte), 0xC2, 0xA2] = [[0x41], [0xC2, 0xA2]].flatten := by decide

/-- `DecodeDependsOnBufferOnly`: two states with the same valid bytes that differ in all else. -/
theorem witness_same_buffer :
    BufferHolds { holding [0x41, 0xE2, 0x82, 0xAC, 0xC2] with pos := 5, ocnt := 3 } [0x41, 0xE2, 0x82, 0xAC, 0xC2] ∧
    BufferHolds sample [0x41, 0xE2, 0x82, 0xAC, 0xC2] := by decide

/-- `DecodeTwiceGivesSameState`, `DecodeFrame` (with `witness_inv`): a `DECODE` that completes. -/
theorem witness_decode : ∃ t, exec (.decode 0) sample = .next t ∧ t.ocnt = 2 := ⟨_, rfl, rfl⟩

/-- `DecodedSequenceReencodesToBuffer`: a `DECODE` that succeeds. -/
theorem witness_decode_success : ∃ t, exec (.decode 0) (holding [0x41, 0xC2, 0xA2]) = .next t ∧ t.dStatus = .endOfInput :=
  ⟨_, rfl, rfl⟩

/-- `HostDrivenDecodeAgrees`, `SetbufLoadsBuffer`: as many bytes as fit, and one more (with `witness_inv`). -/
theorem witness_capacity :
    (List.replicate 8 (0x41 : Byte)).length ≤ sample.bufCap ∧ sample.bufCap < (List.replicate 9 (0x41 : Byte)).length ∧
    Memory.wf sample.ibuf := by decide

/-- `DecodePrefixLaw`: a first part that succeeds, a second part that fails, both together at the capacity. -/
theorem witness_prefix_law :
    ([(0xC2 : Byte), 0xA2, 0x41, 0x41] ++ [(0x42 : Byte), 0x42, 0xE2, 0x82]).length ≤ sample.bufCap ∧
    (∃ t, runAll [.setbuf [0xC2, 0xA2, 0x41, 0x41], .decode 0] sample = .next t ∧ t.dStatus = .endOfInput) ∧
    ∃ t, runAll [.setbuf [0x42, 0x42, 0xE2, 0x82], .decode 0] sample = .next t ∧ t.dStatus = .error .truncated :=
  ⟨by decide, ⟨_, rfl, rfl⟩, _, rfl, rfl⟩

/-- `EncodeRejectsInvalidCodepoints`, `EncodeOneAndTwoByteArms`, `EncodeThreeAndFourByteArms`: both ends of each range. -/
theorem witness_encode_ranges :
    (0x10FFFF < (0x110000#32).toNat ∧ 0x10FFFF < (0xFFFFFFFF#32).toNat ∧
      (0xD800 ≤ (0xD800#32).toNat ∧ (0xDFFF#32).toNat ≤ 0xDFFF)) ∧
    ((0x0#32).toNat ≤ 0x7F ∧ (0x7F#32).toNat ≤ 0x7F ∧ 0x80 ≤ (0x80#32).toNat ∧ (0x7FF#32).toNat ≤ 0x7FF) ∧
    (0x800 ≤ (0x800#32).toNat ∧ ¬ (0xD800 ≤ (0xD7FF#32).toNat ∧ (0xD7FF#32).toNat ≤ 0xDFFF) ∧
      ¬ (0xD800 ≤ (0xE000#32).toNat ∧ (0xE000#32).toNat ≤ 0xDFFF) ∧ (0xFFFF#32).toNat ≤ 0xFFFF) ∧
    (0x10000 ≤ (0x10000#32).toNat ∧ (0x10FFFF#32).toNat ≤ 0x10FFFF) := by decide

/-- `EncodeIsBijectionOntoWellFormedUnits`: the hypotheses of its clauses. -/
theorem witness_bijection :
    hostEncode sample 0x20AC = some [0xE2, 0x82, 0xAC] ∧ WellFormedUnit [0xE2, 0x82, 0xAC] ∧ IsScalar 0xD7FF ∧
    IsScalar 0xE000 ∧ IsScalar 0x10FFFF ∧ ¬ IsScalar 0xD800 ∧ ¬ IsScalar 0xDFFF ∧ ¬ IsScalar 0x110000 := by decide

/-- `EncodeThenDecodeIsIdentity` (with `witness_inv`): a four-byte value. -/
theorem witness_round_trip : minimalLength 0x10FFFF ≤ sample.bufCap ∧ IsScalar 0x10FFFF := by decide

/-- `SeekPlacesCursor`: the end boundary, and one beyond it. -/
theorem witness_seek : (5#32).toNat ≤ sample.endPos ∧ sample.endPos < (6#32).toNat := by decide

/-- `InvariantHoldsAtReset`: the smallest and the largest capacity. -/
theorem witness_capacities :
    (1 ≤ 1 ∧ 1 ≤ Config.bufCapMax) ∧ (1 ≤ Config.bufCapMax ∧ Config.bufCapMax ≤ Config.bufCapMax) := by decide

/-- `StepKeepsInvariant`, `NoFaultFromInvariantStates`, `RegistersFitTheirWidths` (with `witness_inv`): a step that completes. -/
theorem witness_step : ∃ t, step sample = .next t ∧ t.pos = 4 ∧ t.pending = [] := ⟨_, rfl, rfl, rfl⟩

/-- `StepRefusesExactlyTheListed`: its four cases. -/
theorem witness_refusals :
    (⟨0b000#3 ++ 5#32, []⟩ : HostCmd).op = 0 ∧ (⟨0b110#3 ++ 5#32, []⟩ : HostCmd).op = 6 ∧
    refusalOf (step { sample with pending := [⟨0x300000000#35, [1]⟩] }) = some .payloadLength ∧
    refusalOf (step { sample with pending := [⟨0x100000009#35, [1, 2, 3, 4, 5, 6, 7, 8, 9]⟩] }) = some .setbufTooLong ∧
    refusalOf (step { sample with pending := [⟨0x200000006#35, []⟩] }) = some .seekBeyondEnd := by decide

/-- `UnitsShareNoState`: two states that differ only in the encoder; a transaction of `DEC` that completes, one that is refused;
`ENCODE` in both. -/
theorem witness_units :
    let s' := { sample with eStatus := .none, eLen := 0, eB := ⟨0, 0, 0, 0⟩ }
    SameDecoder sample s' ∧ sample.bufCap = s'.bufCap ∧ (decoderAfter (exec (.next 0) sample)).isSome ∧
    refusalOf (exec (.seek 6) sample) = some .seekBeyondEnd ∧ (encoderAfter (exec (.encode 0x41) sample)).isSome ∧
    (encoderAfter (exec (.encode 0x41) s')).isSome := by decide

/-- `StatusesOfEachTransaction`: every transaction completes from `sample`. -/
theorem witness_all_complete :
    (decoderAfter (exec (.next 0) sample)).isSome ∧ (decoderAfter (exec (.decode 0) sample)).isSome ∧
    (decoderAfter (exec (.setbuf [0x41]) sample)).isSome ∧ (decoderAfter (exec (.seek 5) sample)).isSome ∧
    (decoderAfter (exec (.reset 0) sample)).isSome ∧ (encoderAfter (exec (.encode 0xD800) sample)).isSome := by decide

/-- `SeekIntoUnitFindsInvalidLead`: the last byte of the unit at position 1. -/
theorem witness_seek_into_unit :
    sample.endPos ≤ sample.bufCap ∧ (3#32).toNat < sample.endPos ∧ hostReadIbuf sample (3#32).toNat = some 0xAC ∧
    IsCont 0xAC := by decide

end Sys2Proof.Tests
end

section
/-! PROOFS. The decoder and the encoder share no state (00_scope.md R2). One law carries it: a transaction of `DEC` commutes
with replacing everything in the state that is not `DEC`'s. That such a transaction writes no encoder register and that it
reads none both follow from the law. -/

namespace Sys2Proof.Machine

/-! ## Replacing what is not the decoder's -/

/-- The decoder's part and the capacity of `s`, with the encoder's registers and the waiting commands of `e`. -/
def State.withOutsideOf (s e : State) : State := (s.withEncoder e.eStatus e.eLen e.eB).withPending e.pending

@[simp] theorem State.withOutsideOf_self (s : State) : s.withOutsideOf s = s := rfl

/-- The replacement is invisible to the decoder. -/
theorem sameDecoder_withOutsideOf (s e : State) : SameDecoder s (s.withOutsideOf e) :=
  ⟨rfl, rfl, rfl, rfl, rfl, rfl, rfl, rfl⟩

theorem sameEncoder_withOutsideOf (s e : State) : SameEncoder (s.withOutsideOf e) e := ⟨rfl, rfl, rfl⟩

/-- States of one capacity that agree in the decoder's part differ by a replacement of the rest. -/
theorem SameDecoder.eq_withOutsideOf {s s' : State} (h : SameDecoder s s') (hc : s.bufCap = s'.bufCap) :
    s' = s.withOutsideOf s' := by
  cases s
  cases s'
  obtain ⟨rfl, rfl, rfl, rfl, rfl, rfl, rfl, rfl⟩ := h
  obtain rfl := hc
  rfl

/-- Change the next state of an answer, if there is one. -/
def mapNext (f : State → State) : Result → Result
  | .next t => .next (f t)
  | .fault r => .fault r
  | .refused r => .refused r

@[simp] theorem mapNext_next (f : State → State) (t : State) : mapNext f (.next t) = .next (f t) := rfl
@[simp] theorem mapNext_fault (f : State → State) (r : Fault) : mapNext f (.fault r) = .fault r := rfl
@[simp] theorem mapNext_refused (f : State → State) (r : Refusal) : mapNext f (.refused r) = .refused r := rfl

/-- Whatever `mapNext` answers as a next state comes from one. -/
theorem mapNext_eq_next {f : State → State} {r : Result} {t : State} (h : mapNext f r = .next t) : ∃ u, f u = t := by
  cases r with
  | next u => exact ⟨u, by simpa using h⟩
  | fault _ => cases h
  | refused _ => cases h

/-! ## Every operation of the decoder commutes with the replacement -/

@[simp] theorem cursorReader_withOutsideOf (s e : State) : cursorReader (s.withOutsideOf e) = cursorReader s := rfl

theorem finishUnit_withOutsideOf (len : Nat) (r : Except ErrorKind Codepoint) (s e : State) :
    finishUnit len r (s.withOutsideOf e) = mapNext (·.withOutsideOf e) (finishUnit len r s) := by
  cases r with
  | error k => rfl
  | ok v => rfl

theorem runUnit_withOutsideOf (u : UnitForm) (s e : State) :
    runUnit u (s.withOutsideOf e) = mapNext (·.withOutsideOf e) (runUnit u s) := by
  cases u with
  | u1 v => rfl
  | u2 a ks => exact finishUnit_withOutsideOf 2 _ s e
  | u3 a ks => exact finishUnit_withOutsideOf 3 _ s e
  | u4 a ks => exact finishUnit_withOutsideOf 4 _ s e
  | ileadCont x => rfl
  | ileadF8 x => rfl

theorem nextUnit_withOutsideOf (s e : State) :
    nextUnit (s.withOutsideOf e) = mapNext (·.withOutsideOf e) (nextUnit s) := by
  by_cases hp : s.pos = s.endPos
  · rw [nextUnit_at_end hp, nextUnit_at_end (s := s.withOutsideOf e) hp]
    rfl
  · have hp' : ¬ (s.withOutsideOf e).pos = (s.withOutsideOf e).endPos := hp
    rw [nextUnit, nextUnit, if_neg hp, if_neg hp', cursorReader_withOutsideOf]
    rcases unitFrom (cursorReader s) with f | _ | u
    · rfl
    · rfl
    · exact runUnit_withOutsideOf u s e

/-- The append of `DECODE` (41_decoder.md R120), refused by the same bound or done to the same entry. -/
theorem appendValue_withOutsideOf (s e : State) :
    appendValue (s.withOutsideOf e) = (appendValue s).map (·.withOutsideOf e) := by
  rw [appendValue, appendValue, obufWrite, obufWrite]
  by_cases h : s.ocnt < s.bufCap
  · have h' : (s.withOutsideOf e).ocnt < (s.withOutsideOf e).bufCap := h
    rw [if_pos h, if_pos h']
    rfl
  · have h' : ¬ (s.withOutsideOf e).ocnt < (s.withOutsideOf e).bufCap := h
    rw [if_neg h, if_neg h']
    rfl

theorem decodeLoop_withOutsideOf (n : Nat) (s e : State) :
    decodeLoop n (s.withOutsideOf e) = mapNext (·.withOutsideOf e) (decodeLoop n s) := by
  induction n generalizing s with
  | zero => rfl
  | succ n ih =>
    rw [decodeLoop, decodeLoop, nextUnit_withOutsideOf]
    rcases nextUnit s with t | f | r
    · simp only [mapNext_next]
      by_cases hv : t.dStatus = .value
      · have hv' : (t.withOutsideOf e).dStatus = .value := hv
        rw [if_pos hv, if_pos hv', appendValue_withOutsideOf]
        rcases appendValue t with f | t'
        · rfl
        · exact ih t'
      · have hv' : ¬ (t.withOutsideOf e).dStatus = .value := hv
        rw [if_neg hv, if_neg hv', mapNext_next]
    · rfl
    · rfl

/-- A transaction of `DEC`, or a unit class, commutes with the replacement of all that is not the decoder's. -/
theorem exec_withOutsideOf {i : Instr} (he : ∀ cp, i ≠ .encode cp) (hr : ∀ x, i ≠ .reset x) (s e : State) :
    exec i (s.withOutsideOf e) = mapNext (·.withOutsideOf e) (exec i s) := by
  cases i with
  | u1 v => exact runUnit_withOutsideOf (.u1 v) s e
  | u2 a ks => exact runUnit_withOutsideOf (.u2 a ks) s e
  | u3 a ks => exact runUnit_withOutsideOf (.u3 a ks) s e
  | u4 a ks => exact runUnit_withOutsideOf (.u4 a ks) s e
  | ileadCont x => exact runUnit_withOutsideOf (.ileadCont x) s e
  | ileadF8 x => exact runUnit_withOutsideOf (.ileadF8 x) s e
  | setbuf bytes =>
    by_cases h : s.bufCap < bytes.length
    · rw [exec_setbuf_refused h, exec_setbuf_refused (s := s.withOutsideOf e) h]
      rfl
    · rw [exec_setbuf_fits (Nat.not_lt.1 h), exec_setbuf_fits (s := s.withOutsideOf e) (Nat.not_lt.1 h)]
      rfl
  | seek p =>
    by_cases h : s.endPos < p.toNat
    · rw [exec_seek_refused h, exec_seek_refused (s := s.withOutsideOf e) h]
      rfl
    · rw [exec_seek_fits (Nat.not_lt.1 h), exec_seek_fits (s := s.withOutsideOf e) (Nat.not_lt.1 h)]
      rfl
  | next x => exact nextUnit_withOutsideOf s e
  | decode x => exact decodeLoop_withOutsideOf (s.endPos + 1) ((s.withPos 0).withOcnt 0) e
  | encode cp => exact absurd rfl (he cp)
  | reset x => exact absurd rfl (hr x)

/-! ## The two directions of R2 -/

/-- No transaction of `DEC` writes an encoder register. -/
theorem exec_keeps_encoder {i : Instr} {s t : State} (he : ∀ cp, i ≠ .encode cp) (hr : ∀ x, i ≠ .reset x)
    (h : exec i s = .next t) : SameEncoder t s := by
  have hmap := exec_withOutsideOf he hr s s
  rw [State.withOutsideOf_self, h] at hmap
  obtain ⟨u, rfl⟩ := mapNext_eq_next hmap.symm
  exact sameEncoder_withOutsideOf _ s

/-- No transaction of `DEC` reads an encoder register: its answer is the same from states that agree in the decoder's part. -/
theorem exec_of_sameDecoder {i : Instr} {s s' : State} (he : ∀ cp, i ≠ .encode cp) (hr : ∀ x, i ≠ .reset x)
    (h : SameDecoder s s') (hc : s.bufCap = s'.bufCap) :
    exec i s' = mapNext (·.withOutsideOf s') (exec i s) := by
  rw [← exec_withOutsideOf he hr, ← h.eq_withOutsideOf hc]

/-- `ENCODE` neither writes decoder state nor reads any state. -/
theorem exec_encode_apart {cp : Codepoint} {s s' t t' : State} (h : exec (.encode cp) s = .next t)
    (h' : exec (.encode cp) s' = .next t') : SameDecoder t s ∧ SameEncoder t t' := by
  rw [exec_encode] at h h'
  cases h
  cases h'
  exact ⟨⟨rfl, rfl, rfl, rfl, rfl, rfl, rfl, rfl⟩, rfl, rfl, rfl⟩

/-- Settles O53, from the law that every transaction of `DEC` commutes with replacing what is not the decoder's. -/
theorem unitsShareNoState : Obligations.UnitsShareNoState := by
  refine ⟨fun i s t he hr h => exec_keeps_encoder he hr h, fun i s s' he hr hd hc => ?_,
    fun cp s s' t t' h h' => exec_encode_apart h h'⟩
  rw [exec_of_sameDecoder he hr hd hc]
  refine ⟨fun t ht => ⟨t.withOutsideOf s', ?_, sameDecoder_withOutsideOf t s'⟩, fun r hrf => ?_⟩
  · rw [ht, mapNext_next]
  · rw [hrf, mapNext_refused]

end Sys2Proof.Machine
end

section
/-! PROOFS. The registers as the host reads them (10_state.md R27, R31, R38): the codes of the two status registers, and what
a reset leaves to read and to decode. After `RESET` the cursor stands at the end boundary, position 0, so both decoder
transactions end at their first end test. -/

namespace Sys2Proof.Machine

/-! ## The status registers -/

@[simp] theorem hostRead_dStatus (s : State) : hostRead s .dStatus = s.dStatus.code.toNat := rfl
@[simp] theorem hostRead_eStatus (s : State) : hostRead s .eStatus = s.eStatus.code.toNat := rfl

/-- Settles O48: a status register reads as the code of its value, and each value has the code of R27 or R31. -/
theorem statusCodesAreAsListed : Obligations.StatusCodesAreAsListed := by
  intro s
  rw [hostRead_dStatus, hostRead_eStatus]
  constructor
  · cases s.dStatus with
    | none => rfl
    | value => rfl
    | endOfInput => rfl
    | error k => cases k <;> rfl
  · cases s.eStatus <;> rfl

/-! ## After a reset -/

/-- Every register of a reset block reads 0 (R38), whatever its capacity and the commands that wait. -/
theorem hostRead_resetAt (cap : Nat) (q : List HostCmd) (r : Reg) :
    hostRead { State.resetAt cap with pending := q } r = 0 := by
  cases r <;> rfl

/-- The loop of `DECODE` with the cursor at the end boundary: its first `NEXT` ends it (41_decoder.md R111, R120). -/
theorem decodeLoop_at_end {s : State} (n : Nat) (h : s.pos = s.endPos) : decodeLoop (n + 1) s = .next (afterEnd s) := by
  have hend : ¬ (afterEnd s).dStatus = .value := by simp
  rw [decodeLoop, nextUnit_at_end h]
  exact if_neg hend

/-- `DECODE` of an empty buffer: no output, `END_OF_INPUT`. -/
theorem exec_decode_empty {s : State} (x : BitVec 32) (h : s.endPos = 0) :
    exec (.decode x) s = .next (afterEnd ((s.withPos 0).withOcnt 0)) := by
  rw [exec_decode]
  exact decodeLoop_at_end s.endPos h.symm

/-- Settles O57: a reset leaves an empty buffer with the cursor at its end. -/
theorem resetThenNextOrDecodeReportsEndOfInput : Obligations.ResetThenNextOrDecodeReportsEndOfInput := by
  intro x y s
  refine ⟨_, exec_reset x s, hostRead_resetAt s.bufCap s.pending, ?_, ?_⟩
  · rw [exec_next]
    exact nextUnit_at_end rfl
  · exact exec_decode_empty y rfl

end Sys2Proof.Machine
end

section
/-! PROOFS. A `NEXT` after a result (20_memory.md R56, 60_exceptions.md R170). One law carries it: whatever `NEXT` answers, it
has rewritten all three result registers, so it answers the same from every setting of them. A result other than `VALUE`
changes nothing else, so the next `NEXT` runs from such a setting. -/

namespace Sys2Proof.Machine

/-! ## NEXT forgets the previous result -/

@[simp] theorem cursorReader_withResult (s : State) (st : DStatus) (cp : Codepoint) (n : BitVec 3) :
    cursorReader (s.withResult st cp n) = cursorReader s := rfl

theorem finishUnit_withResult (len : Nat) (r : Except ErrorKind Codepoint) (s : State) (st : DStatus) (cp : Codepoint)
    (n : BitVec 3) : finishUnit len r (s.withResult st cp n) = finishUnit len r s := by
  cases r with
  | error k => rfl
  | ok v => rfl

theorem runUnit_withResult (u : UnitForm) (s : State) (st : DStatus) (cp : Codepoint) (n : BitVec 3) :
    runUnit u (s.withResult st cp n) = runUnit u s := by
  cases u with
  | u1 v => rfl
  | u2 a ks => exact finishUnit_withResult 2 _ s st cp n
  | u3 a ks => exact finishUnit_withResult 3 _ s st cp n
  | u4 a ks => exact finishUnit_withResult 4 _ s st cp n
  | ileadCont x => rfl
  | ileadF8 x => rfl

theorem nextUnit_withResult (s : State) (st : DStatus) (cp : Codepoint) (n : BitVec 3) :
    nextUnit (s.withResult st cp n) = nextUnit s := by
  by_cases hp : s.pos = s.endPos
  · rw [nextUnit_at_end hp, nextUnit_at_end (s := s.withResult st cp n) hp]
    rfl
  · have hp' : ¬ (s.withResult st cp n).pos = (s.withResult st cp n).endPos := hp
    rw [nextUnit, nextUnit, if_neg hp, if_neg hp', cursorReader_withResult]
    rcases unitFrom (cursorReader s) with f | _ | u
    · rfl
    · rfl
    · exact runUnit_withResult u s st cp n

/-! ## A result other than VALUE -/

/-- The end of the buffer and the failure completion (41_decoder.md R111, 60_exceptions.md R166) write nothing but the result
registers. -/
theorem nextUnit_nonValue {s t : State} (h : nextUnit s = .next t) (hv : t.dStatus ≠ .value) :
    t = s.withResult t.dStatus 0 0 := by
  rcases nextUnit_cases h with ⟨-, rfl⟩ | ⟨-, k, rfl⟩ | ⟨us, -, -, -, rfl⟩
  · rfl
  · rfl
  · exact absurd rfl hv

/-- Settles O27: a result other than `VALUE` is a setting of the result registers, and `NEXT` forgets those. -/
theorem nextRepeatsNonValueResult : Obligations.NextRepeatsNonValueResult := by
  intro s t x y h hv
  rw [exec_next] at h
  rw [exec_next, nextUnit_nonValue h hv]
  refine ⟨rfl, rfl, rfl, ?_⟩
  rw [nextUnit_withResult, h, ← nextUnit_nonValue h hv]

end Sys2Proof.Machine
end

section
/-! PROOFS. The command codes (30_encoding.md R88, R89). `Laws/Step.lean` says how a command decodes by its `op` and that a
word made of an `op` and an `arg` holds the two; here is what the eight codes give. -/

namespace Sys2Proof.Machine

/-- How the word of an `op` and an `arg` decodes: `decodeCommand_eq`, the two fields read back. -/
theorem decodeCommand_commandWord (op : BitVec 3) (arg : BitVec 32) (bs : List Byte) :
    decodeCommand ⟨commandWord op arg, bs⟩ =
      if op = 1 then if bs.length = arg.toNat then .ok (.setbuf bs) else .error .payloadLength
      else if op = 2 then noPayload ⟨commandWord op arg, bs⟩ (.seek arg)
      else if op = 3 then noPayload ⟨commandWord op arg, bs⟩ (.next arg)
      else if op = 4 then noPayload ⟨commandWord op arg, bs⟩ (.decode arg)
      else if op = 5 then noPayload ⟨commandWord op arg, bs⟩ (.encode arg)
      else if op = 7 then noPayload ⟨commandWord op arg, bs⟩ (.reset arg)
      else .error .unassignedOp := by
  rw [decodeCommand_eq, op_commandWord, arg_commandWord]

/-- A `SETBUF` word whose `arg` is the number of the bytes that accompany it. -/
theorem decodeCommand_setbuf {bytes : List Byte} (h : bytes.length < 2 ^ 32) :
    decodeCommand ⟨commandWord 1 (BitVec.ofNat 32 bytes.length), bytes⟩ = .ok (.setbuf bytes) := by
  have harg : bytes.length = (BitVec.ofNat 32 bytes.length).toNat := by rw [BitVec.toNat_ofNat, Nat.mod_eq_of_lt h]
  rw [decodeCommand_commandWord, if_pos rfl, if_pos harg]

theorem noPayload_nil (word : BitVec 35) (i : Instr) : noPayload ⟨word, []⟩ i = .ok i := if_pos rfl

/-- The two unassigned codes are refused whatever accompanies them (R89). -/
theorem decodeCommand_unassigned {op : BitVec 3} (h : op = 0 ∨ op = 6) (arg : BitVec 32) (bs : List Byte) :
    decodeCommand ⟨commandWord op arg, bs⟩ = .error .unassignedOp := by
  rw [decodeCommand_commandWord]
  rcases h with rfl | rfl <;> rfl

/-- Settles O6: the word of each code is `commandWord`, whose decoding `decodeCommand_commandWord` gives. -/
theorem commandCodesSelectTransactions : Obligations.CommandCodesSelectTransactions := by
  refine ⟨fun bytes h => decodeCommand_setbuf h, fun x => ?_, fun s x bytes q hq => ?_⟩
  · have h (op : BitVec 3) := decodeCommand_commandWord op x []
    simp only [noPayload_nil] at h
    exact ⟨h 2, h 3, h 4, h 5, h 7⟩
  · rcases hq with hq | hq
    · exact step_rejected hq (decodeCommand_unassigned (.inl rfl) x bytes)
    · exact step_rejected hq (decodeCommand_unassigned (.inr rfl) x bytes)

end Sys2Proof.Machine
end

section
/-! PROOFS. What `NEXT` reports, exactly (30_encoding.md R81 to R86). The bytes at the cursor fall into five cases: none; a
1-byte unit; an invalid lead; a complete marked unit; a form that breaks off. In the fourth case alone the value tests of
R164 decide, and `nextUnit_marked` says so: `NEXT` ends as `checkValue` of the number the unit carries says. -/

namespace Sys2Proof.Machine

/-! ## Marked units, form by form -/

theorem isMarkedUnit_two (b0 b1 : Byte) :
    IsMarkedUnit [b0, b1] ↔ (0xC0 ≤ b0.toNat ∧ b0.toNat ≤ 0xDF) ∧ IsCont b1 := by
  simp [IsMarkedUnit, IsLeadOf]

theorem isMarkedUnit_three (b0 b1 b2 : Byte) :
    IsMarkedUnit [b0, b1, b2] ↔ (0xE0 ≤ b0.toNat ∧ b0.toNat ≤ 0xEF) ∧ IsCont b1 ∧ IsCont b2 := by
  simp [IsMarkedUnit, IsLeadOf]

theorem isMarkedUnit_four (b0 b1 b2 b3 : Byte) :
    IsMarkedUnit [b0, b1, b2, b3] ↔ (0xF0 ≤ b0.toNat ∧ b0.toNat ≤ 0xF7) ∧ IsCont b1 ∧ IsCont b2 ∧ IsCont b3 := by
  simp [IsMarkedUnit, IsLeadOf]

/-- A marked unit has two to four bytes. -/
theorem IsMarkedUnit.cases {us : List Byte} (h : IsMarkedUnit us) :
    (∃ b0 b1, us = [b0, b1]) ∨ (∃ b0 b1 b2, us = [b0, b1, b2]) ∨ ∃ b0 b1 b2 b3, us = [b0, b1, b2, b3] := by
  rcases us with _ | ⟨b0, _ | ⟨b1, _ | ⟨b2, _ | ⟨b3, _ | ⟨b4, bs⟩⟩⟩⟩⟩
  · exact h.elim
  · simp [IsMarkedUnit, IsLeadOf] at h
  · exact .inl ⟨_, _, rfl⟩
  · exact .inr (.inl ⟨_, _, _, rfl⟩)
  · exact .inr (.inr ⟨_, _, _, _, rfl⟩)
  · simp [IsMarkedUnit, IsLeadOf] at h

theorem IsMarkedUnit.number_lt {us : List Byte} (h : IsMarkedUnit us) : unitNumber us < 2 ^ 32 := by
  rcases h.cases with ⟨_, _, rfl⟩ | ⟨_, _, _, rfl⟩ | ⟨_, _, _, _, rfl⟩ <;> simp only [unitNumber] <;> omega

/-! ## On the bytes (30_encoding.md R83 to R85) -/

theorem two_overlong_iff {b0 b1 : Byte} (h : IsMarkedUnit [b0, b1]) :
    unitNumber [b0, b1] < 0x80 ↔ b0.toNat = 0xC0 ∨ b0.toNat = 0xC1 := by
  rw [isMarkedUnit_two] at h
  simp only [unitNumber]
  omega

theorem three_overlong_iff {b0 b1 b2 : Byte} (h : IsMarkedUnit [b0, b1, b2]) :
    unitNumber [b0, b1, b2] < 0x800 ↔ b0.toNat = 0xE0 ∧ b1.toNat < 0xA0 := by
  rw [isMarkedUnit_three] at h
  simp only [unitNumber]
  omega

theorem three_surrogate_iff {b0 b1 b2 : Byte} (h : IsMarkedUnit [b0, b1, b2]) :
    0xD800 ≤ unitNumber [b0, b1, b2] ∧ unitNumber [b0, b1, b2] ≤ 0xDFFF ↔ b0.toNat = 0xED ∧ 0xA0 ≤ b1.toNat := by
  rw [isMarkedUnit_three] at h
  simp only [unitNumber]
  omega

theorem four_overlong_iff {b0 b1 b2 b3 : Byte} (h : IsMarkedUnit [b0, b1, b2, b3]) :
    unitNumber [b0, b1, b2, b3] < 0x10000 ↔ b0.toNat = 0xF0 ∧ b1.toNat < 0x90 := by
  rw [isMarkedUnit_four] at h
  simp only [unitNumber]
  omega

theorem four_outOfRange_iff {b0 b1 b2 b3 : Byte} (h : IsMarkedUnit [b0, b1, b2, b3]) :
    0x10FFFF < unitNumber [b0, b1, b2, b3] ↔ (b0.toNat = 0xF4 ∧ 0x90 ≤ b1.toNat) ∨ 0xF5 ≤ b0.toNat := by
  rw [isMarkedUnit_four] at h
  simp only [unitNumber]
  omega

/-- What the data bits of each form can reach. -/
theorem IsMarkedUnit.number_bounds {us : List Byte} (h : IsMarkedUnit us) :
    (us.length = 2 ∧ unitNumber us < 0x800) ∨ (us.length = 3 ∧ unitNumber us < 0x10000) ∨ us.length = 4 := by
  rcases h.cases with ⟨_, _, rfl⟩ | ⟨_, _, _, rfl⟩ | ⟨_, _, _, _, rfl⟩
  · exact .inl ⟨rfl, by simp only [unitNumber]; omega⟩
  · exact .inr (.inl ⟨rfl, by simp only [unitNumber]; omega⟩)
  · exact .inr (.inr rfl)

/-! ## The value tests on a marked unit (60_exceptions.md R164) -/

/-- Which errors the value tests can give, in their order. -/
theorem checkValue_error_iff {len v : Nat} (hv : v < 2 ^ 32) (k : ErrorKind) :
    checkValue len (BitVec.ofNat 32 v) = .error k ↔
      (k = .overlongEncoding ∧ v < (minValue len).toNat) ∨
      (k = .surrogateCodepoint ∧ (minValue len).toNat ≤ v ∧ 0xD800 ≤ v ∧ v ≤ 0xDFFF) ∨
      (k = .outOfRangeCodepoint ∧ (minValue len).toNat ≤ v ∧ 0x10FFFF < v) := by
  rw [checkValue_ofNat len v hv]
  split_ifs with ho hs hr
  · simp [ho, eq_comm]
  · have hr : ¬ 0x10FFFF < v := by omega
    simp [not_lt.1 ho, hs, hr, eq_comm]
  · simp [not_lt.1 ho, hs, hr, eq_comm]
  · simp [not_lt.1 ho, hs, hr]

/-- The three errors on the value, by the form's length (30_encoding.md R83 to R85). -/
theorem IsMarkedUnit.overlong_iff {us : List Byte} (h : IsMarkedUnit us) :
    checkValue us.length (unitCodepoint us) = .error .overlongEncoding ↔
      (us.length = 2 ∧ unitNumber us < 0x80) ∨ (us.length = 3 ∧ unitNumber us < 0x800) ∨
        (us.length = 4 ∧ unitNumber us < 0x10000) := by
  rw [unitCodepoint, checkValue_error_iff h.number_lt]
  rcases h.number_bounds with ⟨hl, -⟩ | ⟨hl, -⟩ | hl <;> simp [hl, minValue]

theorem IsMarkedUnit.surrogate_iff {us : List Byte} (h : IsMarkedUnit us) :
    checkValue us.length (unitCodepoint us) = .error .surrogateCodepoint ↔
      us.length = 3 ∧ 0xD800 ≤ unitNumber us ∧ unitNumber us ≤ 0xDFFF := by
  rw [unitCodepoint, checkValue_error_iff h.number_lt]
  rcases h.number_bounds with ⟨hl, hn⟩ | ⟨hl, hn⟩ | hl <;> simp [hl, minValue] <;> omega

theorem IsMarkedUnit.outOfRange_iff {us : List Byte} (h : IsMarkedUnit us) :
    checkValue us.length (unitCodepoint us) = .error .outOfRangeCodepoint ↔
      us.length = 4 ∧ 0x10FFFF < unitNumber us := by
  rw [unitCodepoint, checkValue_error_iff h.number_lt]
  rcases h.number_bounds with ⟨hl, hn⟩ | ⟨hl, hn⟩ | hl <;> simp [hl, minValue] <;> omega

/-- A marked unit matches a row of R86 or fails a value test. -/
theorem IsMarkedUnit.wellFormed_or_error {us : List Byte} (h : IsMarkedUnit us) :
    WellFormedUnit us ∨ checkValue us.length (unitCodepoint us) = .error .overlongEncoding ∨
      checkValue us.length (unitCodepoint us) = .error .surrogateCodepoint ∨
      checkValue us.length (unitCodepoint us) = .error .outOfRangeCodepoint := by
  rw [h.overlong_iff, h.surrogate_iff, h.outOfRange_iff]
  rcases h.cases with ⟨b0, b1, rfl⟩ | ⟨b0, b1, b2, rfl⟩ | ⟨b0, b1, b2, b3, rfl⟩
  · have hm := (isMarkedUnit_two _ _).1 h
    simp [wellFormed_two, two_overlong_iff h, hm]
    omega
  · have hm := (isMarkedUnit_three _ _ _).1 h
    simp [wellFormed_three, three_overlong_iff h, three_surrogate_iff h, hm]
    omega
  · have hm := (isMarkedUnit_four _ _ _ _).1 h
    simp [wellFormed_four, four_overlong_iff h, four_outOfRange_iff h, hm]
    omega

/-! ## The five cases at the cursor -/

/-- A complete marked unit runs as the value tests on the number it carries. -/
theorem runUnit_marked {b0 : Byte} {ks : List Byte} (h : IsMarkedUnit (b0 :: ks)) (rest : List Byte) (s : State) :
    runUnit (unitOf b0 (ks ++ rest)) s =
      finishUnit (ks.length + 1) (checkValue (ks.length + 1) (unitCodepoint (b0 :: ks))) s := by
  rcases h.cases with ⟨_, b1, ⟨⟩⟩ | ⟨_, b1, b2, ⟨⟩⟩ | ⟨_, b1, b2, b3, ⟨⟩⟩
  · obtain ⟨h0, h1⟩ := (isMarkedUnit_two _ _).1 h
    rw [unitOf, leadClass_u2 b0 h0, takeConts_of_cont 1 [b1] rest rfl h.2]
    simp only [runUnit, execU2, unitValue, assemble2, if_pos h1, BitVec.toNat_setWidth]
    rfl
  · obtain ⟨h0, h1, h2⟩ := (isMarkedUnit_three _ _ _).1 h
    rw [unitOf, leadClass_u3 b0 h0, takeConts_of_cont 2 [b1, b2] rest rfl h.2]
    simp only [runUnit, execU3, unitValue, assemble3, if_pos h1, if_pos h2, BitVec.toNat_setWidth]
    rfl
  · obtain ⟨h0, h1, h2, h3⟩ := (isMarkedUnit_four _ _ _ _).1 h
    rw [unitOf, leadClass_u4 b0 h0, takeConts_of_cont 3 [b1, b2, b3] rest rfl h.2]
    simp only [runUnit, execU4, unitValue, assemble4, if_pos h1, if_pos h2, if_pos h3, BitVec.toNat_setWidth]
    rfl

/-- A form of `n` continuation positions has all its continuation bytes, or breaks off at a missing or an unmarked one. -/
theorem assembleFrom_takeConts (n : Nat) (bs : List Byte) :
    (∃ ks rest, bs = ks ++ rest ∧ ks.length = n ∧ ∀ k ∈ ks, IsCont k) ∨
    ∃ k, (k = .truncated ∨ k = .invalidContinuationByte) ∧
      ∀ acc, assembleFrom acc n (takeConts n bs) = .error k := by
  induction n generalizing bs with
  | zero => exact .inl ⟨[], bs, rfl, rfl, by simp⟩
  | succ n ih =>
    rcases bs with _ | ⟨b, bs⟩
    · exact .inr ⟨_, .inl rfl, fun _ => rfl⟩
    by_cases hb : marked b = true
    · rcases ih bs with ⟨ks, rest, rfl, hl, hc⟩ | ⟨k, hk, he⟩
      · exact .inl ⟨b :: ks, rest, rfl, by simp [hl], List.forall_mem_cons.2 ⟨(marked_iff b).1 hb, hc⟩⟩
      · exact .inr ⟨k, hk, fun acc => by rw [takeConts, if_pos hb, assembleFrom, if_pos hb, he]⟩
    · exact .inr ⟨_, .inr rfl, fun acc => by rw [takeConts, if_neg hb, assembleFrom, if_neg hb]⟩

/-- The unit of a multi-byte lead runs as its form, on what stands at the continuation positions. -/
theorem runUnit_of_lead {len : Nat} {b0 : Byte} (h : IsLeadOf len b0) (rest : List Byte) (s : State) :
    ∃ lead, runUnit (unitOf b0 rest) s = finishUnit len (unitValue len lead (takeConts (len - 1) rest)) s := by
  rcases h with ⟨rfl, hb⟩ | ⟨rfl, hb⟩ | ⟨rfl, hb⟩
  · rw [unitOf, leadClass_u2 b0 hb]
    exact ⟨_, rfl⟩
  · rw [unitOf, leadClass_u3 b0 hb]
    exact ⟨_, rfl⟩
  · rw [unitOf, leadClass_u4 b0 hb]
    exact ⟨_, rfl⟩

/-- A lead byte is a 1-byte unit, an invalid lead, or the lead of a multi-byte form (30_encoding.md R76). -/
theorem lead_cases (b : Byte) : b.toNat ≤ 0x7F ∨ IsInvalidLead b ∨ ∃ len, IsLeadOf len b := by
  rcases (by omega : b.toNat ≤ 0x7F ∨ IsInvalidLead b ∨ (0xC0 ≤ b.toNat ∧ b.toNat ≤ 0xDF) ∨
    (0xE0 ≤ b.toNat ∧ b.toNat ≤ 0xEF) ∨ (0xF0 ≤ b.toNat ∧ b.toNat ≤ 0xF7)) with h | h | h | h | h
  · exact .inl h
  · exact .inr (.inl h)
  · exact .inr (.inr ⟨2, .inl ⟨rfl, h⟩⟩)
  · exact .inr (.inr ⟨3, .inr (.inl ⟨rfl, h⟩)⟩)
  · exact .inr (.inr ⟨4, .inr (.inr ⟨rfl, h⟩)⟩)

theorem nextUnit_invalidLead {s : State} {b0 : Byte} {rest : List Byte} (h : CursorHolds s (b0 :: rest))
    (hb : IsInvalidLead b0) : nextUnit s = .next (afterError s .invalidLeadByte) := by
  rw [nextUnit_of_cursor h, unitOf]
  rcases hb with hb | hb
  · rw [leadClass_cont b0 hb]
    rfl
  · rw [leadClass_f8 b0 hb]
    rfl

/-- Where the buffer goes on with a marked unit, `NEXT` ends as the value tests on its number say. -/
theorem nextUnit_marked {s : State} {us rest : List Byte} (h : CursorHolds s (us ++ rest)) (hm : IsMarkedUnit us) :
    nextUnit s = finishUnit us.length (checkValue us.length (unitCodepoint us)) s := by
  rcases us with _ | ⟨b0, ks⟩
  · exact hm.elim
  · rw [nextUnit_of_cursor (rest := ks ++ rest) h]
    exact runUnit_marked hm rest s

/-- Where a multi-byte form breaks off, `NEXT` reports a missing or an unmarked continuation byte. -/
theorem nextUnit_of_lead {s : State} {len : Nat} {b0 : Byte} {bs : List Byte} (h : CursorHolds s (b0 :: bs))
    (hb : IsLeadOf len b0) :
    (∃ us rest, b0 :: bs = us ++ rest ∧ IsMarkedUnit us) ∨
    ∃ k, (k = .truncated ∨ k = .invalidContinuationByte) ∧ nextUnit s = .next (afterError s k) := by
  rcases assembleFrom_takeConts (len - 1) bs with ⟨ks, rest, rfl, hl, hc⟩ | ⟨k, hk, he⟩
  · have hlen : ks.length + 1 = len := by omega
    exact .inl ⟨b0 :: ks, rest, rfl, hlen ▸ hb, hc⟩
  · obtain ⟨lead, hr⟩ := runUnit_of_lead hb bs s
    refine .inr ⟨k, hk, ?_⟩
    rw [nextUnit_of_cursor h, hr, unitValue, assemble, he]
    rfl

/-- The five cases of the bytes at the cursor, and what `NEXT` answers in each. -/
theorem nextUnit_at_cursor {s : State} {bs : List Byte} (h : CursorHolds s bs) :
    nextUnit s = .next (afterEnd s) ∨
    (∃ us rest, bs = us ++ rest ∧ WellFormedUnit us ∧ nextUnit s = .next (afterValue s (unitNumber us) us.length)) ∨
    (∃ b0 rest, bs = b0 :: rest ∧ IsInvalidLead b0 ∧ nextUnit s = .next (afterError s .invalidLeadByte)) ∨
    (∃ us rest, bs = us ++ rest ∧ IsMarkedUnit us ∧
      nextUnit s = finishUnit us.length (checkValue us.length (unitCodepoint us)) s) ∨
    ∃ k, (k = .truncated ∨ k = .invalidContinuationByte) ∧ nextUnit s = .next (afterError s k) := by
  rcases bs with _ | ⟨b0, bs⟩
  · exact .inl (nextUnit_at_end h.length)
  rcases lead_cases b0 with hb | hb | ⟨len, hb⟩
  · have hw := (wellFormed_one b0).2 hb
    exact .inr (.inl ⟨[b0], bs, rfl, hw, nextUnit_wellFormed (us := [b0]) h hw⟩)
  · exact .inr (.inr (.inl ⟨b0, bs, rfl, hb, nextUnit_invalidLead h hb⟩))
  · rcases nextUnit_of_lead h hb with ⟨us, rest, hus, hm⟩ | hk
    · exact .inr (.inr (.inr (.inl ⟨us, rest, hus, hm, nextUnit_marked (hus ▸ h) hm⟩)))
    · exact .inr (.inr (.inr (.inr hk)))

/-! ## When each error is reported -/

theorem next_afterError_inj {s : State} {k k' : ErrorKind} :
    (.next (afterError s k) : Result) = .next (afterError s k') ↔ k = k' := by
  simp

theorem finishUnit_eq_error_iff {len : Nat} {r : Except ErrorKind Codepoint} {s : State} {k : ErrorKind} :
    finishUnit len r s = .next (afterError s k) ↔ r = .error k := by
  cases r with
  | error k' => simp [finishUnit, raiseKind, State.withResult]
  | ok v => simp [finishUnit, completeValue, State.withResult, State.withPos]

theorem checkValue_kind {len v : Nat} {k : ErrorKind} (hv : v < 2 ^ 32)
    (h : checkValue len (BitVec.ofNat 32 v) = .error k) :
    k = .overlongEncoding ∨ k = .surrogateCodepoint ∨ k = .outOfRangeCodepoint := by
  rcases (checkValue_error_iff hv k).1 h with ⟨hk, -⟩ | ⟨hk, -⟩ | ⟨hk, -⟩
  · exact .inl hk
  · exact .inr (.inl hk)
  · exact .inr (.inr hk)

/-- Everything that makes `NEXT` report an error kind on readable bytes. -/
theorem nextUnit_error_cases {s : State} {bs : List Byte} {k : ErrorKind} (h : CursorHolds s bs)
    (hk : nextUnit s = .next (afterError s k)) :
    (k = .invalidLeadByte ∧ ∃ b0 rest, bs = b0 :: rest ∧ IsInvalidLead b0) ∨
    ((k = .overlongEncoding ∨ k = .surrogateCodepoint ∨ k = .outOfRangeCodepoint) ∧
      ∃ us rest, bs = us ++ rest ∧ IsMarkedUnit us ∧ checkValue us.length (unitCodepoint us) = .error k) ∨
    k = .truncated ∨ k = .invalidContinuationByte := by
  rcases nextUnit_at_cursor h with he | ⟨us, _, _, _, he⟩ | ⟨b0, rest, hbs, hb, he⟩ | ⟨us, rest, hus, hm, he⟩ |
    ⟨k', hk', he⟩
  · simp [hk] at he
  · simp [hk] at he
  · exact .inl ⟨next_afterError_inj.1 (hk.symm.trans he), b0, rest, hbs, hb⟩
  · have hc := finishUnit_eq_error_iff.1 (he.symm.trans hk)
    exact .inr (.inl ⟨checkValue_kind hm.number_lt hc, us, rest, hus, hm, hc⟩)
  · exact .inr (.inr (next_afterError_inj.1 (hk.symm.trans he) ▸ hk'))

/-- The errors on the value: exactly where a marked unit fails that test. -/
theorem nextUnit_valueError_iff {s : State} {bs : List Byte} {k : ErrorKind} (h : CursorHolds s bs)
    (hk : k = .overlongEncoding ∨ k = .surrogateCodepoint ∨ k = .outOfRangeCodepoint) :
    nextUnit s = .next (afterError s k) ↔
      ∃ us rest, bs = us ++ rest ∧ IsMarkedUnit us ∧ checkValue us.length (unitCodepoint us) = .error k := by
  refine ⟨fun he => ?_, fun ⟨us, rest, hus, hm, hc⟩ => ?_⟩
  · rcases nextUnit_error_cases h he with ⟨rfl, -⟩ | ⟨-, hex⟩ | rfl | rfl
    · simp at hk
    · exact hex
    · simp at hk
    · simp at hk
  · rw [nextUnit_marked (hus ▸ h) hm, hc]
    rfl

/-- Settles O21: only an invalid lead gives this kind, and `nextUnit_invalidLead` is the other direction. -/
theorem invalidLeadExactlyWhen : Obligations.InvalidLeadExactlyWhen := by
  intro s x bs h
  rw [exec_next]
  refine ⟨fun he => ?_, fun ⟨b0, rest, hbs, hb⟩ => nextUnit_invalidLead (hbs ▸ h) hb⟩
  rcases nextUnit_error_cases h he with ⟨-, hex⟩ | ⟨hk, -⟩ | hk
  · exact hex
  · simp at hk
  · simp at hk

/-- Settles O22: a marked unit that fails the first value test, and which bytes those are. -/
theorem overlongExactlyWhen : Obligations.OverlongExactlyWhen := by
  refine ⟨fun s x bs h => ?_, fun _ _ => two_overlong_iff, fun _ _ _ => three_overlong_iff,
    fun _ _ _ _ => four_overlong_iff⟩
  rw [exec_next, nextUnit_valueError_iff h (.inl rfl)]
  refine exists_congr fun us => exists_congr fun rest => and_congr_right fun _ => and_congr_right fun hm => ?_
  exact hm.overlong_iff

/-- Settles O23: a marked unit that fails the second or the third value test, and which bytes those are. -/
theorem surrogateAndOutOfRangeExactlyWhen : Obligations.SurrogateAndOutOfRangeExactlyWhen := by
  refine ⟨fun s x bs h => ⟨?_, ?_⟩, fun _ _ _ => three_surrogate_iff, fun _ _ _ _ => four_outOfRange_iff,
    fun us hm => ?_⟩
  · rw [exec_next, nextUnit_valueError_iff h (.inr (.inl rfl))]
    refine exists_congr fun us => exists_congr fun rest => and_congr_right fun _ => and_congr_right fun hm => ?_
    exact hm.surrogate_iff
  · rw [exec_next, nextUnit_valueError_iff h (.inr (.inr rfl))]
    refine exists_congr fun us => exists_congr fun rest => and_congr_right fun _ => and_congr_right fun hm => ?_
    exact hm.outOfRange_iff
  · rcases hm.number_bounds with ⟨hl, hn⟩ | ⟨hl, hn⟩ | hl <;> omega

/-! ## The table of well-formed units (30_encoding.md R86) -/

theorem inRanges_nil_iff (us : List Byte) : inRanges us [] = true ↔ us = [] := by
  cases us <;> simp [inRanges]

theorem inRanges_cons_iff (us : List Byte) (r : Nat × Nat) (rs : List (Nat × Nat)) :
    inRanges us (r :: rs) = true ↔ ∃ b bs, us = b :: bs ∧ (r.1 ≤ b.toNat ∧ b.toNat ≤ r.2) ∧ inRanges bs rs = true := by
  cases us <;> simp [inRanges]

/-- The value of a unit in a row lies in the row's range: each byte's range bounds its data bits. -/
theorem unitNumber_in_row : ∀ r ∈ wellFormedRows, ∀ us, inRanges us r.1 = true →
    r.2.1 ≤ unitNumber us ∧ unitNumber us ≤ r.2.2 := by
  simp only [wellFormedRows, List.forall_mem_cons, inRanges_cons_iff, inRanges_nil_iff]
  refine ⟨?ascii, ?two, ?e0, ?e1, ?ed, ?ee, ?f0, ?f1, ?f4, fun r hr => absurd hr List.not_mem_nil⟩
  case ascii =>
    rintro us ⟨b0, _, rfl, h0, rfl⟩
    exact h0
  case two =>
    rintro us ⟨b0, _, rfl, h0, b1, _, rfl, h1, rfl⟩
    simp only [unitNumber]
    omega
  case e0 | e1 | ed | ee =>
    rintro us ⟨b0, _, rfl, h0, b1, _, rfl, h1, b2, _, rfl, h2, rfl⟩
    simp only [unitNumber]
    omega
  case f0 | f1 | f4 =>
    rintro us ⟨b0, _, rfl, h0, b1, _, rfl, h1, b2, _, rfl, h2, b3, _, rfl, h3, rfl⟩
    simp only [unitNumber]
    omega

theorem endsWith_next_iff {t : State} {st : DStatus} : EndsWith (.next t) st ↔ t.dStatus = st := by
  simp [EndsWith]

theorem not_endsWith_value_of_error {s : State} {r : Result} {k : ErrorKind} (h : r = .next (afterError s k)) :
    ¬ EndsWith r .value := by
  rw [h, endsWith_next_iff]
  simp

/-- Of the five cases at the cursor only a well-formed unit ends with `VALUE`: a marked one that matches no row fails a value
test. -/
theorem wellFormed_of_value {s : State} {bs : List Byte} (h : CursorHolds s bs) (hv : EndsWith (nextUnit s) .value) :
    ∃ us rest, bs = us ++ rest ∧ WellFormedUnit us := by
  rcases nextUnit_at_cursor h with he | ⟨us, rest, hus, hw, -⟩ | ⟨_, _, _, _, he⟩ | ⟨us, rest, hus, hm, he⟩ | ⟨k, _, he⟩
  · rw [he, endsWith_next_iff] at hv
    simp at hv
  · exact ⟨us, rest, hus, hw⟩
  · exact absurd hv (not_endsWith_value_of_error he)
  · refine ⟨us, rest, hus, ?_⟩
    rcases hm.wellFormed_or_error with hw | hc | hc | hc
    · exact hw
    all_goals exact absurd hv (not_endsWith_value_of_error (he.trans (finishUnit_eq_error_iff.2 hc)))
  · exact absurd hv (not_endsWith_value_of_error he)

/-- Settles O24: a well-formed unit gives its value, a marked unit of no row fails a value test, and nothing else gives
`VALUE`. -/
theorem nextDecodesExactlyWellFormedUnits : Obligations.NextDecodesExactlyWellFormedUnits := by
  refine ⟨fun s x bs h => ⟨fun us rest hus hw => ?_, fun hv => ?_, fun us rest hus hm hn => ?_⟩, unitNumber_in_row⟩
  · rw [exec_next]
    exact nextUnit_wellFormed (hus ▸ h) hw
  · exact wellFormed_of_value h hv
  · simp only [exec_next, nextUnit_marked (hus ▸ h) hm, finishUnit_eq_error_iff]
    exact hm.wellFormed_or_error.resolve_left hn

end Sys2Proof.Machine
end

section
/-! PROOFS. The buffer and cursor transactions (40_buffer_and_cursor.md R100, R101). `Laws/Buffer.lean` gives the next state of
`SETBUF` and `SEEK`, `Laws/Memory.lean` what consecutive writes leave to read. -/

namespace Sys2Proof.Machine

/-- Settles O45: the next state of `SEEK` is `Laws/Buffer.lean`'s, and neither memory is among the fields it writes. -/
theorem seekPlacesCursor : Obligations.SeekPlacesCursor := by
  refine fun p s => ⟨exec_seek_refused, fun hle => ⟨exec_seek_fits hle, fun t ht => ?_⟩⟩
  rw [exec_seek_fits hle] at ht
  cases ht
  exact ⟨fun _ => rfl, fun _ => rfl⟩

/-- `SETBUF` of bytes that stand at the start of `IBUF` already rewrites no entry. -/
theorem exec_setbuf_loaded {bytes : List Byte} {s : State} (h : bytes.length ≤ s.bufCap) (hm : Memory.wf s.ibuf)
    (hr : ∀ k (hk : k < bytes.length), hostReadIbuf s k = some bytes[k]) :
    exec (.setbuf bytes) s = .next
      { s with endPos := bytes.length, pos := 0, dStatus := .none, dCp := 0, dNcons := 0, ocnt := 0 } := by
  have hsame : Memory.writeFrom s.ibuf 0 bytes = s.ibuf :=
    Memory.writeFrom_eq_self bytes 0 hm fun k hk => by rw [Nat.zero_add]; exact hr k hk
  rw [exec_setbuf_fits h, hsame]

/-- Settles O44: what `IBUF` holds is what consecutive writes from index 0 leave, and a second load finds its bytes there. -/
theorem setbufLoadsBuffer : Obligations.SetbufLoadsBuffer := by
  refine fun bytes s => ⟨exec_setbuf_refused, fun hfit => ?_⟩
  have hloaded : ∀ k (hk : k < bytes.length), Memory.read (Memory.writeFrom s.ibuf 0 bytes) k = some bytes[k] := by
    intro k hk
    simpa using Memory.read_writeFrom bytes s.ibuf 0 hk
  refine ⟨_, exec_setbuf_fits hfit, rfl, hloaded, fun a ha => ?_, fun _ => rfl, fun hm => ?_⟩
  · exact Memory.read_writeFrom_other bytes s.ibuf 0 a (.inr (by omega))
  · exact exec_setbuf_loaded hfit (Memory.wf_writeFrom bytes 0 hm) hloaded

end Sys2Proof.Machine
end

section
/-! PROOFS. A decode call driven from the host (40_buffer_and_cursor.md R102). `exec_decode_readable` cuts the buffer into
the well-formed units `DECODE` consumes and a rest at which `NEXT` stops, with the same status from every state whose cursor
holds that rest. The host's run is followed along the same units. -/

namespace Sys2Proof.Machine

/-! ## The two cases of a call of NEXT -/

theorem hostDecode_of_nonValue {n : Nat} {s t : State} (h : nextUnit s = .next t) (hv : t.dStatus ≠ .value) :
    hostDecode (n + 1) s = some ([], t) := by
  rw [hostDecode, exec_next, h]
  exact if_neg hv

theorem hostDecode_of_value {n : Nat} {s t u : State} {cs : List Codepoint} (h : nextUnit s = .next t)
    (hv : t.dStatus = .value) (hrest : hostDecode n t = some (cs, u)) :
    hostDecode (n + 1) s = some (t.dCp :: cs, u) := by
  simp only [hostDecode, exec_next, h, hv, hrest, if_true]

/-! ## The run along the units -/

/-- The host collects the value of each well-formed unit and stops, having written nothing but the cursor and the result
registers, where `NEXT` first answers another status. -/
theorem hostDecode_units {us : List (List Byte)} {rest : List Byte} {st : DStatus} (hw : ∀ u ∈ us, WellFormedUnit u)
    (hst : st ≠ .value) (hstop : ∀ s : State, CursorHolds s rest → nextUnit s = .next (s.withResult st 0 0))
    {n : Nat} {s : State} (h : CursorHolds s (us.flatten ++ rest)) (hn : (us.flatten ++ rest).length < n) :
    hostDecode n s =
      some (us.map unitCodepoint, (s.withPos (s.pos + us.flatten.length)).withResult st 0 0) := by
  induction us generalizing n s with
  | nil =>
    obtain ⟨n, rfl⟩ := Nat.exists_eq_add_one_of_ne_zero (Nat.ne_zero_of_lt hn)
    exact hostDecode_of_nonValue (hstop s h) hst
  | cons u us ih =>
    obtain ⟨n, rfl⟩ := Nat.exists_eq_add_one_of_ne_zero (Nat.ne_zero_of_lt hn)
    obtain ⟨hu, hus⟩ := List.forall_mem_cons.1 hw
    rw [List.flatten_cons, List.append_assoc] at h hn
    have hnext := nextUnit_wellFormed h hu
    have hcursor : CursorHolds (afterValue s (unitNumber u) u.length) (us.flatten ++ rest) := h.advance rfl rfl rfl rfl
    have hleft : (us.flatten ++ rest).length < n := by
      have := hu.length_pos
      rw [List.length_append] at hn
      omega
    rw [hostDecode_of_value hnext rfl (ih hus hcursor hleft), List.flatten_cons, List.length_append, ← Nat.add_assoc]
    rfl

/-! ## Against DECODE -/

/-- From the start of a readable buffer the host and `DECODE` consume the same units and stop at the same rest; only `DECODE`
writes `OCNT`. -/
theorem hostDecode_agrees_with_decode {s : State} {bs : List Byte} (h : BufferHolds s bs) (hp : s.pos = 0) (x : BitVec 32) :
    ∃ t cs u, exec (.decode x) s = .next t ∧ hostDecode (bs.length + 1) s = some (cs, u) ∧
      decodedSequence t = cs.map some ∧ t.dStatus = u.dStatus ∧ t.pos = u.pos ∧ t.ocnt = cs.length ∧
      u.ocnt = s.ocnt := by
  obtain ⟨t, us, rest, hdec, hw, rfl, ht, hend⟩ := exec_decode_readable h x
  obtain ⟨hst, hstop⟩ : t.dStatus ≠ .value ∧
      ∀ s' : State, CursorHolds s' rest → nextUnit s' = .next (s'.withResult t.dStatus 0 0) := by
    rcases hend with ⟨rfl, hst⟩ | ⟨-, k, hst, herr⟩
    · rw [hst]
      exact ⟨by simp, fun s' hs' => nextUnit_at_end hs'.length⟩
    · rw [hst]
      exact ⟨by simp, herr⟩
  have hcnt : t.ocnt = (us.map unitCodepoint).length := by rw [ht, List.length_map]
  have hobuf : t.obuf = Memory.writeFrom s.obuf 0 (us.map unitCodepoint) := by rw [ht]
  have hpos : t.pos = s.pos + us.flatten.length := by rw [ht, hp, Nat.zero_add]
  have hrun := hostDecode_units hw hst hstop (cursorHolds_of_bufferHolds h hp) (Nat.lt_succ_self _)
  exact ⟨t, _, _, hdec, hrun, decodedSequence_writeFrom hobuf hcnt, rfl, hpos, hcnt, rfl⟩

/-- `SETBUF` of bytes that fit leaves them readable, the cursor at their start and no output. -/
theorem exec_setbuf_readable {bytes : List Byte} {s : State} (h : bytes.length ≤ s.bufCap) :
    ∃ t, exec (.setbuf bytes) s = .next t ∧ BufferHolds t bytes ∧ t.pos = 0 ∧ t.ocnt = 0 :=
  ⟨_, exec_setbuf_fits h, bufferHolds_writeFrom rfl rfl h, rfl, rfl⟩

/-- Settles O34: `SETBUF` puts both at the start of the same readable buffer, with `OCNT` at 0. -/
theorem hostDrivenDecodeAgrees : Obligations.HostDrivenDecodeAgrees := by
  intro s x bytes _ hfit
  obtain ⟨s1, hset, hholds, hpos, hocnt⟩ := exec_setbuf_readable hfit
  obtain ⟨t, cs, u, hdec, hrun, hseq, hst, hp, hcnt, hu⟩ := hostDecode_agrees_with_decode hholds hpos x
  exact ⟨s1, t, cs, u, hset, hdec, hrun, hseq, hst, hp, hcnt, hu.trans hocnt⟩

end Sys2Proof.Machine
end

section
/-! PROOFS. What `NEXT` does at each lead byte (41_decoder.md R111 to R118). A class reads no byte beyond the positions
`takeConts` keeps, so at the cursor `NEXT` is the class of the lead byte on everything that follows it; the instruction's
rule then holds at the cursor, with its tests on the value turned into tests on the bytes. -/

namespace Sys2Proof.Machine

/-! ## The classes at the cursor -/

/-- The assembly stops where the decoder stops reading. -/
theorem assembleFrom_takeConts_eq (acc : Codepoint) (n : Nat) (ks : List Byte) :
    assembleFrom acc n (takeConts n ks) = assembleFrom acc n ks := by
  induction n generalizing acc ks with
  | zero => rfl
  | succ n ih =>
    rcases ks with _ | ⟨b, ks⟩
    · rfl
    · by_cases hb : marked b = true
      · simp only [takeConts, assembleFrom, if_pos hb, ih]
      · simp only [takeConts, assembleFrom, if_neg hb]

theorem unitValue_takeConts (len : Nat) (lead : Codepoint) (ks : List Byte) :
    unitValue len lead (takeConts (len - 1) ks) = unitValue len lead ks := by
  rw [unitValue, unitValue, assemble, assemble, assembleFrom_takeConts_eq]

theorem nextUnit_u2 {s : State} {b0 : Byte} {rest : List Byte} (h : CursorHolds s (b0 :: rest))
    (hb : 0xC0 ≤ b0.toNat ∧ b0.toNat ≤ 0xDF) : nextUnit s = execU2 (b0.setWidth 5) rest s := by
  rw [nextUnit_of_cursor h, unitOf, leadClass_u2 b0 hb]
  exact congrArg (finishUnit 2 · s) (unitValue_takeConts 2 _ rest)

theorem nextUnit_u3 {s : State} {b0 : Byte} {rest : List Byte} (h : CursorHolds s (b0 :: rest))
    (hb : 0xE0 ≤ b0.toNat ∧ b0.toNat ≤ 0xEF) : nextUnit s = execU3 (b0.setWidth 4) rest s := by
  rw [nextUnit_of_cursor h, unitOf, leadClass_u3 b0 hb]
  exact congrArg (finishUnit 3 · s) (unitValue_takeConts 3 _ rest)

theorem nextUnit_u4 {s : State} {b0 : Byte} {rest : List Byte} (h : CursorHolds s (b0 :: rest))
    (hb : 0xF0 ≤ b0.toNat ∧ b0.toNat ≤ 0xF7) : nextUnit s = execU4 (b0.setWidth 3) rest s := by
  rw [nextUnit_of_cursor h, unitOf, leadClass_u4 b0 hb]
  exact congrArg (finishUnit 4 · s) (unitValue_takeConts 4 _ rest)

/-! ## A form that breaks off (R117, R118) -/

/-- A byte is missing and all before it are marked. -/
theorem assembleFrom_truncated_iff (acc : Codepoint) (n : Nat) (ks : List Byte) :
    assembleFrom acc n ks = .error .truncated ↔ ks.length < n ∧ ∀ k ∈ ks, IsCont k := by
  induction n generalizing acc ks with
  | zero => simp [assembleFrom]
  | succ n ih =>
    rcases ks with _ | ⟨b, ks⟩
    · simp [assembleFrom]
    · rw [assembleFrom_cons, List.forall_mem_cons, List.length_cons]
      split_ifs with hb
      · rw [ih, Nat.add_lt_add_iff_right, and_iff_right hb]
      · simp [hb]

/-- A byte stands at one of the continuation positions and is unmarked. -/
theorem assembleFrom_invalidContinuation_iff (acc : Codepoint) (n : Nat) (ks : List Byte) :
    assembleFrom acc n ks = .error .invalidContinuationByte ↔ ∃ k ∈ ks.take n, ¬ IsCont k := by
  induction n generalizing acc ks with
  | zero => simp [assembleFrom]
  | succ n ih =>
    rcases ks with _ | ⟨b, ks⟩
    · simp [assembleFrom]
    · rw [assembleFrom_cons, List.take_succ_cons, List.exists_mem_cons_iff]
      split_ifs with hb
      · rw [ih, or_iff_right (not_not.2 hb)]
      · exact iff_of_true rfl (.inl hb)

/-- The value tests give neither of the two errors of a form that breaks off. -/
theorem unitValue_eq_breakOff_iff {k : ErrorKind} (hk : k = .truncated ∨ k = .invalidContinuationByte) (len : Nat)
    (lead : Codepoint) (ks : List Byte) :
    unitValue len lead ks = .error k ↔ assemble len lead ks = .error k := by
  rw [unitValue]
  cases assemble len lead ks with
  | error k' => rfl
  | ok v =>
    have hcheck : checkValue len v ≠ .error k := by
      intro h
      rw [ofNat_of_toNat (v := v) rfl] at h
      rcases hk with rfl | rfl <;> simpa using checkValue_kind v.isLt h
    simpa using hcheck

theorem unitValue_truncated_iff (len : Nat) (lead : Codepoint) (ks : List Byte) :
    unitValue len lead ks = .error .truncated ↔ ks.length < len - 1 ∧ ∀ k ∈ ks, IsCont k := by
  rw [unitValue_eq_breakOff_iff (.inl rfl), assemble, assembleFrom_truncated_iff]

theorem unitValue_invalidContinuation_iff (len : Nat) (lead : Codepoint) (ks : List Byte) :
    unitValue len lead ks = .error .invalidContinuationByte ↔ ∃ k ∈ ks.take (len - 1), ¬ IsCont k := by
  rw [unitValue_eq_breakOff_iff (.inr rfl), assemble, assembleFrom_invalidContinuation_iff]

/-! ## One byte, and no form -/

/-- Settles O12: the class on its number, and the 1-byte row of the well-formed units. -/
theorem u1ReturnsItsByte : Obligations.U1ReturnsItsByte := by
  refine ⟨execU1_eq, fun s x b0 rest h hb => ?_⟩
  rw [exec_next]
  exact nextUnit_wellFormed (us := [b0]) h ((wellFormed_one b0).2 hb)

/-- Settles O16: both classes are the failure completion, and `NEXT` runs them on the lead byte alone. -/
theorem invalidLeadsReportInvalidLeadByte : Obligations.InvalidLeadsReportInvalidLeadByte := by
  refine ⟨fun _ _ => rfl, fun _ _ => rfl, fun s x b0 rest h hb => ?_⟩
  rw [exec_next]
  exact nextUnit_invalidLead h hb

/-! ## Two bytes (R113) -/

theorem execU2_unmarked (a : BitVec 5) {b1 : Byte} (ks : List Byte) (s : State) (h1 : ¬ IsCont b1) :
    execU2 a (b1 :: ks) s = .next (afterError s .invalidContinuationByte) := by
  rw [execU2_eq]
  simp only [if_neg h1]

theorem execU2_marked (a : BitVec 5) {b1 : Byte} (ks : List Byte) (s : State) (h1 : IsCont b1) :
    execU2 a (b1 :: ks) s =
      .next (if a.toNat * 64 + b1.toNat % 64 < 0x80 then afterError s .overlongEncoding
        else afterValue s (a.toNat * 64 + b1.toNat % 64) 2) := by
  rw [execU2_eq]
  simp only [if_pos h1]

/-- Settles O13: the class by its continuation byte, and at the cursor the same, a value below `0x80` being a lead `0xC0` or
`0xC1`. -/
theorem u2FollowsItsRule : Obligations.U2FollowsItsRule := by
  refine ⟨fun _ _ => rfl, fun a _ ks s => execU2_unmarked a ks s, fun a _ ks s => execU2_marked a ks s,
    fun s x b0 rest h hb => ?_⟩
  rw [exec_next, nextUnit_u2 h hb]
  rcases rest with _ | ⟨b1, rest⟩
  · rfl
  by_cases h1 : IsCont b1
  · have hover : b0.toNat % 32 * 64 + b1.toNat % 64 < 0x80 ↔ b0.toNat ≤ 0xC1 := by omega
    rw [execU2_marked _ _ _ h1, BitVec.toNat_setWidth, apply_ite Host.Outcome.next]
    simp only [if_pos h1, Nat.reducePow, hover]
  · rw [execU2_unmarked _ _ _ h1]
    simp only [if_neg h1]

/-! ## Three bytes (R114) -/

/-- Settles O14: the class by its continuation bytes, and at the cursor the same, its two value tests on a marked unit being
tests on the first two bytes. -/
theorem u3FollowsItsRule : Obligations.U3FollowsItsRule := by
  refine ⟨fun a ks s => ?_, fun s x b0 rest h hb => ?_⟩
  · change execU3 a ks s = _
    rw [execU3_eq]
    rcases ks with _ | ⟨b1, _ | ⟨b2, ks⟩⟩
    · rfl
    · simp only [ite_not, apply_ite Host.Outcome.next]
    · simp only [ite_not, apply_ite Host.Outcome.next]
  · rw [exec_next, nextUnit_u3 h hb, execU3_eq]
    rcases rest with _ | ⟨b1, rest⟩
    · rfl
    by_cases h1 : IsCont b1
    · rcases rest with _ | ⟨b2, rest⟩
      · simp only [ite_not, if_pos h1]
      by_cases h2 : IsCont b2
      · have hm : IsMarkedUnit [b0, b1, b2] := (isMarkedUnit_three _ _ _).2 ⟨hb, h1, h2⟩
        have hover := three_overlong_iff hm
        have hsur := three_surrogate_iff hm
        simp only [unitNumber] at hover hsur
        simp only [ite_not, if_pos h1, if_pos h2, BitVec.toNat_setWidth, Nat.reducePow, hover, hsur,
          apply_ite Host.Outcome.next]
      · simp only [if_pos h1, ite_not, if_neg h2]
    · simp only [ite_not, if_neg h1]

/-! ## Four bytes (R115) -/

theorem execU4_short (a : BitVec 3) {ks : List Byte} (s : State) (hl : ks.length < 3) :
    execU4 a ks s =
      if ∀ k ∈ ks, IsCont k then .next (afterError s .truncated)
      else .next (afterError s .invalidContinuationByte) := by
  split_ifs with hall
  · exact finishUnit_eq_error_iff.2 ((unitValue_truncated_iff _ _ _).2 ⟨hl, hall⟩)
  · refine finishUnit_eq_error_iff.2 ((unitValue_invalidContinuation_iff _ _ _).2 ?_)
    rw [List.take_of_length_le (by omega)]
    simpa only [not_forall, exists_prop] using hall

theorem execU4_unmarked (a : BitVec 3) {b1 b2 b3 : Byte} (ks : List Byte) (s : State)
    (h : ¬ (IsCont b1 ∧ IsCont b2 ∧ IsCont b3)) :
    execU4 a (b1 :: b2 :: b3 :: ks) s = .next (afterError s .invalidContinuationByte) := by
  refine finishUnit_eq_error_iff.2 ((unitValue_invalidContinuation_iff _ _ _).2 ?_)
  by_contra hno
  have hall : ∀ k ∈ [b1, b2, b3], IsCont k := fun k hk => by_contra fun hc => hno ⟨k, hk, hc⟩
  exact h ⟨hall b1 (by simp), hall b2 (by simp), hall b3 (by simp)⟩

theorem execU4_marked (a : BitVec 3) {b1 b2 b3 : Byte} (ks : List Byte) (s : State)
    (h : IsCont b1 ∧ IsCont b2 ∧ IsCont b3) :
    execU4 a (b1 :: b2 :: b3 :: ks) s =
      let v := a.toNat * 262144 + b1.toNat % 64 * 4096 + b2.toNat % 64 * 64 + b3.toNat % 64
      if v < 0x10000 then .next (afterError s .overlongEncoding)
      else if 0x10FFFF < v then .next (afterError s .outOfRangeCodepoint)
      else .next (afterValue s v 4) := by
  obtain ⟨h1, h2, h3⟩ := h
  rw [execU4_eq]
  simp only [if_pos h1, if_pos h2, if_pos h3, apply_ite Host.Outcome.next]

/-- Settles O15: the class by its continuation bytes, and at the cursor the same, its two value tests on a marked unit being
tests on the first two bytes. -/
theorem u4FollowsItsRule : Obligations.U4FollowsItsRule := by
  refine ⟨fun a ks s => ?_, fun s x b0 rest h hb => ?_⟩
  · change execU4 a ks s = _
    rcases ks with _ | ⟨b1, _ | ⟨b2, _ | ⟨b3, ks⟩⟩⟩
    -- fewer than three positions are present
    iterate 3 exact execU4_short a s (by simp)
    by_cases hc : IsCont b1 ∧ IsCont b2 ∧ IsCont b3
    · simp only [execU4_marked a ks s hc, if_pos hc]
    · simp only [execU4_unmarked a ks s hc, if_neg hc]
  · rw [exec_next, nextUnit_u4 h hb]
    rcases rest with _ | ⟨b1, _ | ⟨b2, _ | ⟨b3, rest⟩⟩⟩
    -- fewer than three positions are present
    iterate 3 exact execU4_short _ s (by simp)
    by_cases hc : IsCont b1 ∧ IsCont b2 ∧ IsCont b3
    · have hm : IsMarkedUnit [b0, b1, b2, b3] := (isMarkedUnit_four _ _ _ _).2 ⟨hb, hc⟩
      have hover := four_overlong_iff hm
      have hout := four_outOfRange_iff hm
      simp only [unitNumber] at hover hout
      simp only [execU4_marked _ rest s hc, if_pos hc, BitVec.toNat_setWidth, Nat.reducePow, hover, hout]
    · simp only [execU4_unmarked _ rest s hc, if_neg hc]

/-! ## When a form breaks off, exactly -/

/-- Only the bytes after a multi-byte lead make a form break off. -/
theorem lead_of_breakOff {s : State} {bs : List Byte} {k : ErrorKind} (h : CursorHolds s bs)
    (hk : k = .truncated ∨ k = .invalidContinuationByte) (he : nextUnit s = .next (afterError s k)) :
    ∃ b0 ks len, bs = b0 :: ks ∧ IsLeadOf len b0 := by
  rcases bs with _ | ⟨b0, ks⟩
  · rw [nextUnit_at_end h.length] at he
    simp at he
  rcases lead_cases b0 with hb | hb | ⟨len, hb⟩
  · rw [nextUnit_wellFormed (us := [b0]) h ((wellFormed_one b0).2 hb)] at he
    simp at he
  · rw [nextUnit_invalidLead h hb, next_afterError_inj] at he
    simp [← he] at hk
  · exact ⟨b0, ks, len, rfl, hb⟩

/-- On readable bytes each of the two errors has one reason, which lies in the bytes after the lead. -/
theorem nextUnit_breakOff_iff {s : State} {bs : List Byte} {k : ErrorKind} {P : Nat → List Byte → Prop}
    (h : CursorHolds s bs) (hk : k = .truncated ∨ k = .invalidContinuationByte)
    (hP : ∀ len lead ks, unitValue len lead ks = .error k ↔ P len ks) :
    nextUnit s = .next (afterError s k) ↔ ∃ b0 ks len, bs = b0 :: ks ∧ IsLeadOf len b0 ∧ P len ks := by
  have key : ∀ {b0 ks len}, bs = b0 :: ks → IsLeadOf len b0 → (nextUnit s = .next (afterError s k) ↔ P len ks) := by
    rintro b0 ks len rfl hb
    obtain ⟨lead, hr⟩ := runUnit_of_lead hb ks s
    rw [nextUnit_of_cursor h, hr, unitValue_takeConts, finishUnit_eq_error_iff, hP]
  refine ⟨fun he => ?_, fun ⟨b0, ks, len, hbs, hb, hp⟩ => (key hbs hb).2 hp⟩
  obtain ⟨b0, ks, len, hbs, hb⟩ := lead_of_breakOff h hk he
  exact ⟨b0, ks, len, hbs, hb, (key hbs hb).1 he⟩

/-- Settles O19: the form misses a byte, counted with its lead. -/
theorem truncatedExactlyWhen : Obligations.TruncatedExactlyWhen := by
  intro s x bs h
  rw [exec_next, nextUnit_breakOff_iff h (.inl rfl) unitValue_truncated_iff]
  refine exists_congr fun b0 => exists_congr fun ks => exists_congr fun len => and_congr_right fun hbs =>
    and_congr_right fun _ => and_congr_left fun _ => ?_
  rw [hbs, List.length_cons]
  omega

/-- The first unmarked byte cuts the continuation positions. -/
theorem exists_first_unmarked {n : Nat} {bs : List Byte} (h : ∃ k ∈ bs.take n, ¬ IsCont k) :
    ∃ ks b rest, bs = ks ++ b :: rest ∧ ks.length < n ∧ (∀ k ∈ ks, IsCont k) ∧ ¬ IsCont b := by
  induction n generalizing bs with
  | zero => simp at h
  | succ n ih =>
    rcases bs with _ | ⟨b, bs⟩
    · simp at h
    rw [List.take_succ_cons, List.exists_mem_cons_iff] at h
    by_cases hb : IsCont b
    · obtain ⟨ks, c, rest, rfl, hlt, hks, hc⟩ := ih (h.resolve_left (not_not.2 hb))
      exact ⟨b :: ks, c, rest, rfl, Nat.succ_lt_succ hlt, List.forall_mem_cons.2 ⟨hb, hks⟩, hc⟩
    · exact ⟨[], b, bs, rfl, Nat.succ_pos n, by simp, hb⟩

/-- Settles O20: the first unmarked byte at a continuation position. -/
theorem invalidContinuationExactlyWhen : Obligations.InvalidContinuationExactlyWhen := by
  intro s x bs h
  rw [exec_next, nextUnit_breakOff_iff h (.inr rfl) unitValue_invalidContinuation_iff]
  constructor
  · rintro ⟨b0, _, len, rfl, hlead, hex⟩
    obtain ⟨ks, b, rest, rfl, hlt, hks, hb⟩ := exists_first_unmarked hex
    exact ⟨b0, ks, b, rest, len, rfl, hlead, by omega, hks, hb⟩
  · rintro ⟨b0, ks, b, rest, len, rfl, hlead, hlt, -, hb⟩
    have hpos : ks.length < len - 1 := by omega
    exact ⟨b0, _, len, rfl, hlead, b, List.mem_take_iff_getElem.2 ⟨ks.length, by simp [hpos], by simp⟩, hb⟩

/-! ## The end of the buffer (R111) -/

/-- Settles O17: of all that `NEXT` can do only its first end test reports the end. -/
theorem nextReportsEndOnlyAtEnd : Obligations.NextReportsEndOnlyAtEnd := by
  refine ⟨fun s x h => nextUnit_at_end h, fun s t x h he => ?_, rfl, rfl⟩
  rcases nextUnit_cases h with ⟨hp, -⟩ | ⟨-, k, rfl⟩ | ⟨us, -, -, -, rfl⟩
  · exact hp
  · simp at he
  · simp at he

end Sys2Proof.Machine
end

section
/-! PROOFS. `DECODE` as a function of the buffer's bytes (41_decoder.md R120 to R127). Every byte string is cut in one way
into well-formed units and a rest at which `NEXT` stops; `exec_decode_units` writes the end state of `DECODE` out from that
cut, and what the rules of R121, R123, R126 and R127 say is read off it. -/

namespace Sys2Proof.Machine

/-! ## A value's bytes (R125) -/

/-- `ENCODE` gives a well-formed unit's value back as its bytes. -/
theorem hostEncode_unitCodepoint {us : List Byte} (h : WellFormedUnit us) (s : State) :
    hostEncode s (unitCodepoint us) = some us := by
  obtain ⟨hok, hunit⟩ := encodeResult_unitCodepoint h
  rw [hostEncode_eq, if_pos hok, hunit]

/-- Settles O25: a `VALUE` comes from a well-formed unit read at the cursor. -/
theorem valueIsMinimalScalarAndReencodes : Obligations.ValueIsMinimalScalarAndReencodes := by
  intro s t x h hv
  rcases nextUnit_cases h with ⟨-, rfl⟩ | ⟨-, k, rfl⟩ | ⟨us, hw, -, hread, rfl⟩
  · simp at hv
  · simp at hv
  · have hlen : (BitVec.ofNat 3 us.length).toNat = us.length := by
      have := hw.length_le
      rw [BitVec.toNat_ofNat, Nat.mod_eq_of_lt (by omega)]
    exact ⟨hw.minimal.1, hlen.trans hw.minimal.2.symm, us, hostEncode_unitCodepoint hw _, hlen.symm, hread⟩

/-! ## Where NEXT stops -/

/-- From every state whose cursor holds `rest`, `NEXT` ends with the status `st`, which is not `VALUE`. -/
def StopsWith (rest : List Byte) (st : DStatus) : Prop :=
  st ≠ .value ∧ ∀ s : State, CursorHolds s rest → nextUnit s = .next (s.withResult st 0 0)

/-- There is such a state for every byte string. -/
theorem exists_cursorHolds (rest : List Byte) : ∃ s, CursorHolds s rest :=
  ⟨{ State.resetAt rest.length with ibuf := Memory.writeFrom [] 0 rest, endPos := rest.length },
    cursorHolds_of_bufferHolds (bufferHolds_writeFrom rfl rfl (Nat.le_refl _)) rfl⟩

theorem StopsWith.unique {rest : List Byte} {st st' : DStatus} (h : StopsWith rest st) (h' : StopsWith rest st') :
    st = st' := by
  obtain ⟨s, hs⟩ := exists_cursorHolds rest
  have he : (.next (s.withResult st 0 0) : Result) = .next (s.withResult st' 0 0) := (h.2 s hs).symm.trans (h'.2 s hs)
  exact congrArg State.dStatus (Host.Outcome.next.inj he)

theorem stopsWith_nil : StopsWith [] .endOfInput := ⟨by simp, fun _ hs => nextUnit_at_end hs.length⟩

/-- Only the empty rest ends the input (R111). -/
theorem StopsWith.eq_nil {rest : List Byte} (h : StopsWith rest .endOfInput) : rest = [] := by
  obtain ⟨s, hs⟩ := exists_cursorHolds rest
  have hp : s.pos = s.endPos := nextReportsEndOnlyAtEnd.2.1 s _ 0 (h.2 s hs) rfl
  exact List.length_eq_zero_iff.1 (by have := hs.length; omega)

/-- Where `NEXT` stops no well-formed unit begins. -/
theorem StopsWith.not_wellFormed {rest : List Byte} {st : DStatus} (h : StopsWith rest st) (u r : List Byte)
    (hr : rest = u ++ r) : ¬ WellFormedUnit u := by
  intro hu
  obtain ⟨s, hs⟩ := exists_cursorHolds rest
  have he := (h.2 s hs).symm.trans (nextUnit_wellFormed (hr ▸ hs) hu)
  exact h.1 (congrArg State.dStatus (Host.Outcome.next.inj he))

/-! ## The end state of DECODE -/

/-- `DECODE` has consumed the units `us` and stopped with the status `st`. -/
abbrev afterDecode (s : State) (us : List (List Byte)) (st : DStatus) : State :=
  { s with pos := us.flatten.length, ocnt := us.length, obuf := Memory.writeFrom s.obuf 0 (us.map unitCodepoint),
           dStatus := st, dCp := 0, dNcons := 0 }

theorem decodedSequence_afterDecode (s : State) (us : List (List Byte)) (st : DStatus) :
    decodedSequence (afterDecode s us st) = (us.map unitCodepoint).map some :=
  decodedSequence_writeFrom (m := s.obuf) rfl (by simp)

theorem hostReadObuf_afterDecode (s : State) {us : List (List Byte)} (st : DStatus) {k : Nat} (hk : k < us.length) :
    hostReadObuf (afterDecode s us st) k = some (unitCodepoint us[k]) := by
  have := Memory.read_writeFrom (us.map unitCodepoint) s.obuf 0 (k := k) (by simpa using hk)
  simpa [hostReadObuf] using this

/-- Every readable buffer is cut into well-formed units and a rest at which `NEXT` stops, and `DECODE` follows the cut. -/
theorem exec_decode_cut {s : State} {bs : List Byte} (h : BufferHolds s bs) (x : BitVec 32) :
    ∃ us rest st, (∀ u ∈ us, WellFormedUnit u) ∧ bs = us.flatten ++ rest ∧ StopsWith rest st ∧
      exec (.decode x) s = .next (afterDecode s us st) := by
  obtain ⟨t, us, rest, hdec, hw, hbs, ht, hend⟩ := exec_decode_readable h x
  refine ⟨us, rest, t.dStatus, hw, hbs, ?_, hdec.trans (congrArg _ ht)⟩
  rcases hend with ⟨rfl, hst⟩ | ⟨-, k, hst, herr⟩
  · rw [hst]
    exact stopsWith_nil
  · rw [hst]
    exact ⟨by simp, herr⟩

/-- However the buffer is cut so, `DECODE` follows that cut: there is only one. -/
theorem exec_decode_units {s : State} {us : List (List Byte)} {rest : List Byte} {st : DStatus}
    (h : BufferHolds s (us.flatten ++ rest)) (hw : ∀ u ∈ us, WellFormedUnit u) (hst : StopsWith rest st)
    (x : BitVec 32) : exec (.decode x) s = .next (afterDecode s us st) := by
  obtain ⟨vs, rest', st', hw', hcut, hst', hdec⟩ := exec_decode_cut h x
  obtain ⟨rfl, rfl⟩ := units_unique hw hw' hcut hst.not_wellFormed hst'.not_wellFormed
  rw [hdec, hst.unique hst']

/-! ## What follows from the cut -/

/-- Settles O31: the input ends exactly where the rest is empty. -/
theorem decodeSucceedsExactlyOnWellFormed : Obligations.DecodeSucceedsExactlyOnWellFormed := by
  intro s x bs h
  have hgood : ∀ us : List (List Byte), (∀ u ∈ us, WellFormedUnit u) → bs = us.flatten →
      exec (.decode x) s = .next (afterDecode s us .endOfInput) := fun us hw hbs =>
    exec_decode_units (rest := []) (by rw [List.append_nil, ← hbs]; exact h) hw stopsWith_nil x
  refine ⟨⟨fun he => ?_, fun ⟨us, hw, hbs⟩ => ⟨_, hgood us hw hbs, rfl⟩⟩, fun us hw hbs => ?_⟩
  · obtain ⟨us, rest, st, hw, hbs, hst, hdec⟩ := exec_decode_cut h x
    obtain rfl : st = .endOfInput := by rwa [hdec, endsWith_next_iff] at he
    exact ⟨us, hw, by rw [hbs, hst.eq_nil, List.append_nil]⟩
  · have hpos : us.flatten.length = s.endPos := by rw [bufferHolds_length h, hbs]
    exact ⟨_, hgood us hw hbs, rfl, hpos, rfl, by rw [decodedSequence_afterDecode, List.map_map]; rfl⟩

/-- Settles O32: `DECODE` follows one cut of the bytes from both states. -/
theorem decodeDependsOnBufferOnly : Obligations.DecodeDependsOnBufferOnly := by
  intro s s' x x' bs h h'
  obtain ⟨us, rest, st, hw, rfl, hst, hdec⟩ := exec_decode_cut h x
  refine ⟨_, _, hdec, exec_decode_units h' hw hst x', rfl, rfl, rfl, rfl, rfl, fun k hk => ?_⟩
  rw [hostReadObuf_afterDecode s st hk, hostReadObuf_afterDecode s' st hk]

/-- Settles O36: each unit of the cut is the encoding of its value. -/
theorem decodedSequenceReencodesToBuffer : Obligations.DecodedSequenceReencodesToBuffer := by
  intro s t x bs h hdec he
  obtain ⟨us, rest, st, hw, hbs, hst, hdec'⟩ := exec_decode_cut h x
  obtain rfl : afterDecode s us st = t := Host.Outcome.next.inj (hdec'.symm.trans hdec)
  obtain rfl : st = .endOfInput := he
  refine ⟨us.map unitCodepoint, us, decodedSequence_afterDecode s us _, ?_, by rw [hbs, hst.eq_nil, List.append_nil]⟩
  rw [List.map_map]
  exact List.map_congr_left fun u hu => hostEncode_unitCodepoint (hw u hu) _

/-! ## A buffer of two parts (R127) -/

/-- `SETBUF` of bytes that fit, then `DECODE`, is `DECODE` from a state that holds the bytes. -/
theorem runAll_setbuf_decode {bytes : List Byte} {s : State} (h : bytes.length ≤ s.bufCap) :
    ∃ s1, BufferHolds s1 bytes ∧ runAll [.setbuf bytes, .decode 0] s = exec (.decode 0) s1 := by
  obtain ⟨s1, hset, hholds, -, -⟩ := exec_setbuf_readable h
  refine ⟨s1, hholds, ?_⟩
  rw [runAll, hset]
  simp only [runAll]
  cases exec (.decode 0) s1 <;> rfl

/-- What `SETBUF` and `DECODE` leave to read is a function of the cut of the bytes. -/
theorem runAll_setbuf_decode_units {us : List (List Byte)} {rest : List Byte} {st : DStatus} {s : State}
    (h : (us.flatten ++ rest).length ≤ s.bufCap) (hw : ∀ u ∈ us, WellFormedUnit u) (hst : StopsWith rest st) :
    ∃ s1, runAll [.setbuf (us.flatten ++ rest), .decode 0] s = .next (afterDecode s1 us st) := by
  obtain ⟨s1, hholds, hrun⟩ := runAll_setbuf_decode h
  exact ⟨s1, hrun.trans (exec_decode_units hholds hw hst 0)⟩

/-- A run of `SETBUF` and `DECODE` gives a cut of its bytes. -/
theorem exists_cut_of_runAll {bytes : List Byte} {s t : State} (h : bytes.length ≤ s.bufCap)
    (ht : runAll [.setbuf bytes, .decode 0] s = .next t) :
    ∃ s1 us rest st, (∀ u ∈ us, WellFormedUnit u) ∧ bytes = us.flatten ++ rest ∧ StopsWith rest st ∧
      t = afterDecode s1 us st := by
  obtain ⟨s1, hholds, hrun⟩ := runAll_setbuf_decode h
  obtain ⟨us, rest, st, hw, hbs, hst, hdec⟩ := exec_decode_cut hholds 0
  exact ⟨s1, us, rest, st, hw, hbs, hst, Host.Outcome.next.inj (ht.symm.trans (hrun.trans hdec))⟩

/-- Settles O37: the units of `a` and then the cut of `b` are the cut of `a ++ b`. -/
theorem decodePrefixLaw : Obligations.DecodePrefixLaw := by
  intro s a b ta tb _ hfit hta hend htb
  rw [List.length_append] at hfit
  obtain ⟨sa, ua, ra, sta, hwa, rfl, hsta, rfl⟩ := exists_cut_of_runAll (by omega) hta
  obtain ⟨sb, ub, rb, stb, hwb, rfl, hstb, rfl⟩ := exists_cut_of_runAll (by omega) htb
  obtain rfl : sta = .endOfInput := hend
  obtain rfl := hsta.eq_nil
  have hcut : ua.flatten ++ [] ++ (ub.flatten ++ rb) = (ua ++ ub).flatten ++ rb := by simp
  have hlen : ((ua ++ ub).flatten ++ rb).length ≤ s.bufCap := by rw [← hcut, List.length_append]; exact hfit
  have hw : ∀ u ∈ ua ++ ub, WellFormedUnit u := List.forall_mem_append.2 ⟨hwa, hwb⟩
  obtain ⟨s1, hrun⟩ := runAll_setbuf_decode_units hlen hw hstb
  rw [hcut]
  refine ⟨_, hrun, rfl, by simp, List.length_append, ?_⟩
  rw [decodedSequence_afterDecode, decodedSequence_afterDecode, decodedSequence_afterDecode, List.map_append,
    List.map_append]

end Sys2Proof.Machine
end

section
/-! PROOFS. `ENCODE` (42_encoder.md R141 to R149). Its arms are read off `encodeResult` range by range. What it says of
units is one law, `hostEncode_eq_some_iff`: the encoding of a codepoint is the well-formed unit that carries it. With that
unit alone in the buffer `DECODE` follows the cut into one unit. -/

namespace Sys2Proof.Machine

/-! ## The arms (R141 to R145) -/

/-- Settles O38: the validity test comes first. -/
theorem encodeRejectsInvalidCodepoints : Obligations.EncodeRejectsInvalidCodepoints := by
  intro cp s h
  rw [exec_encode, encodeResult_invalid h]

/-- Settles O39: the two shortest rows of the encoder's table. -/
theorem encodeOneAndTwoByteArms : Obligations.EncodeOneAndTwoByteArms := by
  refine fun cp s => ⟨fun h => ?_, fun ⟨hlo, hhi⟩ => ?_⟩
  · have hr : encodeResult cp = ⟨.ok, 1, pack1 cp⟩ := by
      rw [encodeResult_valid (by omega), if_pos h]
    rw [exec_encode, hr, pack1_eq]
  · have hr : encodeResult cp = ⟨.ok, 2, pack2 cp⟩ := by
      rw [encodeResult_valid (by omega), if_neg (by omega), if_pos hhi]
    rw [exec_encode, hr, pack2_eq hhi]

/-- Settles O40: the two longest rows, the surrogate band cut out of the first of them. -/
theorem encodeThreeAndFourByteArms : Obligations.EncodeThreeAndFourByteArms := by
  refine fun cp s => ⟨fun ⟨hlo, hhi, hsur⟩ => ?_, fun ⟨hlo, hhi⟩ => ?_⟩
  · have hr : encodeResult cp = ⟨.ok, 3, pack3 cp⟩ := by
      rw [encodeResult_valid (by omega), if_neg (by omega), if_neg (by omega), if_pos hhi]
    rw [exec_encode, hr, pack3_eq hhi]
  · have hr : encodeResult cp = ⟨.ok, 4, pack4 cp⟩ := by
      rw [encodeResult_valid (by omega), if_neg (by omega), if_neg (by omega), if_neg (by omega)]
    rw [exec_encode, hr, pack4_eq hhi]

/-! ## Encodings and well-formed units (R149) -/

/-- A scalar value is encoded as a well-formed unit that carries it, as long as `E_LEN` says and no longer than it must be. -/
theorem encodeResult_scalar {cp : Codepoint} (h : IsScalar cp) :
    (encodeResult cp).status = .ok ∧ WellFormedUnit (encodeResult cp).unit ∧ unitCodepoint (encodeResult cp).unit = cp ∧
      (encodeResult cp).unit.length = minimalLength cp ∧ (encodeResult cp).len.toNat = minimalLength cp := by
  rcases encodeResult_cases cp with ⟨hn, -⟩ | ⟨-, hok, hlen, hunit, hw, hnum, -⟩
  · exact absurd h hn
  · exact ⟨hok, hw, by rw [unitCodepoint, hnum, BitVec.ofNat_toNat, BitVec.setWidth_eq], hunit, hlen⟩

theorem encodeResult_ok_iff (cp : Codepoint) : (encodeResult cp).status = .ok ↔ IsScalar cp := by
  refine ⟨fun hok => ?_, fun h => (encodeResult_scalar h).1⟩
  rcases encodeResult_cases cp with ⟨-, hr⟩ | ⟨h, -⟩
  · simp [hr] at hok
  · exact h

/-- The encoding of a codepoint is the well-formed unit that carries it; without such a unit there is none. -/
theorem hostEncode_eq_some_iff (s : State) (cp : Codepoint) (us : List Byte) :
    hostEncode s cp = some us ↔ WellFormedUnit us ∧ unitCodepoint us = cp := by
  constructor
  · intro h
    obtain ⟨hok, rfl⟩ : (encodeResult cp).status = .ok ∧ (encodeResult cp).unit = us := by simpa [hostEncode_eq] using h
    obtain ⟨-, hw, hcp, -, -⟩ := encodeResult_scalar ((encodeResult_ok_iff cp).1 hok)
    exact ⟨hw, hcp⟩
  · rintro ⟨hw, rfl⟩
    exact hostEncode_unitCodepoint hw s

/-- Settles O42: a well-formed unit and the value it carries determine each other. -/
theorem encodeIsBijectionOntoWellFormedUnits : Obligations.EncodeIsBijectionOntoWellFormedUnits := by
  intro s
  simp only [hostEncode_eq_some_iff]
  refine ⟨?_, ?_, fun us hw => ⟨_, hw, rfl⟩, fun cp h => ?_⟩
  · rintro _ us ⟨hw, rfl⟩
    exact ⟨hw.minimal.1, hw⟩
  · rintro _ _ us ⟨-, rfl⟩ ⟨-, rfl⟩
    rfl
  · obtain ⟨-, hw, hcp, -, -⟩ := encodeResult_scalar h
    exact ⟨_, hw, hcp⟩

/-! ## The round trip (R148) -/

/-- `SETBUF` of one well-formed unit, then `DECODE`, consume that unit and reach the end of the input. -/
theorem runAll_setbuf_decode_unit {us : List Byte} {s : State} (hw : WellFormedUnit us) (hfit : us.length ≤ s.bufCap) :
    ∃ s1, runAll [.setbuf us, .decode 0] s = .next (afterDecode s1 [us] .endOfInput) := by
  have hcut : [us].flatten ++ [] = us := by simp
  have hrun := runAll_setbuf_decode_units (us := [us]) (s := s) (by rwa [hcut]) (by simpa using hw) stopsWith_nil
  rwa [hcut] at hrun

/-- Settles O43: the encoding is a well-formed unit that carries `cp`, and `DECODE` finds it alone in the buffer. -/
theorem encodeThenDecodeIsIdentity : Obligations.EncodeThenDecodeIsIdentity := by
  intro s cp _ hcap h
  obtain ⟨hok, hw, hcp, hunit, hlen⟩ := encodeResult_scalar h
  have hpos : [(encodeResult cp).unit].flatten.length = (encodeResult cp).len.toNat := by
    rw [List.flatten_singleton, hunit, hlen]
  obtain ⟨s1, hrun⟩ := runAll_setbuf_decode_unit
    (s := s.withEncoder (encodeResult cp).status (encodeResult cp).len (encodeResult cp).bytes) hw
    (by rw [hunit]; exact hcap)
  have hread := hostReadObuf_afterDecode s1 (us := [(encodeResult cp).unit]) .endOfInput (k := 0) Nat.one_pos
  exact ⟨_, _, exec_encode cp s, hok, hrun, rfl, rfl, hread.trans (congrArg some hcp), hpos⟩

end Sys2Proof.Machine
end

section
/-! PROOFS. The statuses of completed transactions (60_exceptions.md R161, R166). `DECODE` ends with the answer of its last
`NEXT`, so what a failing `NEXT` writes and repeats is what a failing `DECODE` does at the failing iteration. -/

namespace Sys2Proof.Machine

/-! ## The failure completion (R166) -/

theorem nextUnit_error {s t : State} {k : ErrorKind} (h : nextUnit s = .next t) (hk : t.dStatus = .error k) :
    t = afterError s k := by
  have ht := nextUnit_nonValue h (by simp [hk])
  rwa [hk] at ht

/-- `DECODE` writes `POS`, `OCNT`, `OBUF` and the result registers, `D_CP` and `D_NCONS` with zero. -/
theorem exec_decode_frame {x : BitVec 32} {s t : State} (h : exec (.decode x) s = .next t) :
    t = { s with pos := t.pos, ocnt := t.ocnt, obuf := t.obuf, dStatus := t.dStatus, dCp := 0, dNcons := 0 } := by
  rw [exec_decode] at h
  obtain ⟨cps, ht, -⟩ := decodeLoop_next h
  rw [ht]
  rfl

/-- Where `DECODE` has stopped, `NEXT` stops the same way. -/
theorem exec_next_of_decode {x : BitVec 32} {s t : State} (h : exec (.decode x) s = .next t) (y : BitVec 32) :
    exec (.next y) t = .next t := by
  rw [exec_decode] at h
  obtain ⟨u, hu, hv⟩ := decodeLoop_last h
  obtain ⟨-, -, -, hrepeat⟩ := nextRepeatsNonValueResult u t 0 y hu hv
  exact hrepeat

/-- Settles O26: `NEXT` writes only the result registers, and a failing `DECODE` stands where `NEXT` fails. -/
theorem failureCompletionIsPrecise : Obligations.FailureCompletionIsPrecise := by
  refine ⟨fun s t x k h hk => nextUnit_error h hk, fun s t x k h hk => ⟨?_, exec_next_of_decode h 0⟩⟩
  have ht := exec_decode_frame h
  rwa [hk] at ht

/-! ## Which transaction leaves which status (R161) -/

theorem nextUnit_status_ne_none {s t : State} (h : nextUnit s = .next t) : t.dStatus ≠ .none := by
  rcases nextUnit_cases h with ⟨-, rfl⟩ | ⟨-, k, rfl⟩ | ⟨us, -, -, -, rfl⟩
  · exact DStatus.noConfusion
  · exact DStatus.noConfusion
  · exact DStatus.noConfusion

theorem exec_setbuf_status {bytes : List Byte} {s t : State} (h : exec (.setbuf bytes) s = .next t) :
    t.dStatus = .none := by
  by_cases hfit : bytes.length ≤ s.bufCap
  · rw [exec_setbuf_fits hfit] at h
    cases h
    rfl
  · rw [exec_setbuf_refused (Nat.not_le.1 hfit)] at h
    cases h

theorem exec_seek_status {p : BitVec 32} {s t : State} (h : exec (.seek p) s = .next t) : t.dStatus = .none := by
  by_cases hfit : p.toNat ≤ s.endPos
  · rw [exec_seek_fits hfit] at h
    cases h
    rfl
  · rw [exec_seek_refused (Nat.not_le.1 hfit)] at h
    cases h

theorem encodeResult_status (cp : Codepoint) :
    (encodeResult cp).status = .ok ∨ (encodeResult cp).status = .invalidCodepoint := by
  rcases encodeResult_cases cp with ⟨-, hr⟩ | ⟨-, hok, -⟩
  · exact .inr (congrArg EncResult.status hr)
  · exact .inl hok

/-- Settles O54, transaction by transaction; `DECODE` leaves the status of its last `NEXT`, which is not `VALUE`. -/
theorem statusesOfEachTransaction : Obligations.StatusesOfEachTransaction := by
  refine fun s t => ⟨fun x h => nextUnit_status_ne_none h, fun x h => ?_, fun bytes h => exec_setbuf_status h,
    fun p h => exec_seek_status h, fun x h => ?_, fun cp h => ?_⟩
  · rw [exec_decode] at h
    obtain ⟨u, hu, hv⟩ := decodeLoop_last h
    exact ⟨nextUnit_status_ne_none hu, hv⟩
  · rw [exec_reset] at h
    cases h
    exact ⟨rfl, rfl⟩
  · rw [exec_encode] at h
    cases h
    exact encodeResult_status cp

end Sys2Proof.Machine
end

section
/-! PROOFS. The reset block in every state (70_reset_and_hazards.md R190): its registers are `hostRead_resetAt`'s, and its two
memories, whose entries R190 leaves unspecified, hold no value. -/

namespace Sys2Proof.Machine

@[simp] theorem hostReadIbuf_resetAt (cap : Nat) (q : List HostCmd) (a : Nat) :
    hostReadIbuf { State.resetAt cap with pending := q } a = none := Memory.read_nil a

@[simp] theorem hostReadObuf_resetAt (cap : Nat) (q : List HostCmd) (a : Nat) :
    hostReadObuf { State.resetAt cap with pending := q } a = none := Memory.read_nil a

/-- Settles O46: `RESET` leaves the reset block of the state's capacity, with the waiting commands kept, and the three reads
of that block are the lemmas'. -/
theorem resetGivesResetState : Obligations.ResetGivesResetState := fun x s =>
  ⟨_, exec_reset x s, hostRead_resetAt s.bufCap s.pending, hostReadIbuf_resetAt s.bufCap s.pending,
    hostReadObuf_resetAt s.bufCap s.pending⟩

end Sys2Proof.Machine
end

section
/-! PROOFS. Decoding and encoding undo each other (30_encoding.md R70 to R76, R88). A unit's bytes begin with a lead byte that
gives the class and the data bits back, and the decoder takes all of well-formed continuation positions; a command's word is
its `op` and its `arg`. -/

namespace Sys2Proof.Machine

/-! ## Lead bytes made of a marker and data bits: closed facts over the data bits -/

theorem lead_join_u1 (v : BitVec 7) : leadClass (v.setWidth 8) = .u1 ∧ (v.setWidth 8).setWidth 7 = v := by
  revert v; decide

theorem lead_join_u2 (a : BitVec 5) :
    leadClass (Config.lead2Mark ||| a.setWidth 8) = .u2 ∧ (Config.lead2Mark ||| a.setWidth 8).setWidth 5 = a := by
  revert a; decide

theorem lead_join_u3 (a : BitVec 4) :
    leadClass (Config.lead3Mark ||| a.setWidth 8) = .u3 ∧ (Config.lead3Mark ||| a.setWidth 8).setWidth 4 = a := by
  revert a; decide

theorem lead_join_u4 (a : BitVec 3) :
    leadClass (Config.lead4Mark ||| a.setWidth 8) = .u4 ∧ (Config.lead4Mark ||| a.setWidth 8).setWidth 3 = a := by
  revert a; decide

theorem lead_join_cont (x : BitVec 6) :
    leadClass (Config.contMark ||| x.setWidth 8) = .cont ∧ (Config.contMark ||| x.setWidth 8).setWidth 6 = x := by
  revert x; decide

theorem lead_join_f8 (x : BitVec 3) :
    leadClass (0xF8#8 ||| x.setWidth 8) = .f8 ∧ (0xF8#8 ||| x.setWidth 8).setWidth 3 = x := by
  revert x; decide

/-! ## Units -/

/-- The bytes of a well-formed unit, and nothing after them, decode to that unit. -/
theorem decodeUnit_bytes (u : UnitForm) (h : WellFormed u.toInstr) : decodeUnit u.bytes = some u := by
  cases u with
  | u1 v =>
    obtain ⟨hc, hv⟩ := lead_join_u1 v
    simp only [UnitForm.bytes, decodeUnit_cons, unitOf, hc, hv]
  | u2 a ks =>
    obtain ⟨hc, ha⟩ := lead_join_u2 a
    simp only [UnitForm.bytes, decodeUnit_cons, unitOf, hc, ha, takeConts_of_wellFormed 1 ks h]
  | u3 a ks =>
    obtain ⟨hc, ha⟩ := lead_join_u3 a
    simp only [UnitForm.bytes, decodeUnit_cons, unitOf, hc, ha, takeConts_of_wellFormed 2 ks h]
  | u4 a ks =>
    obtain ⟨hc, ha⟩ := lead_join_u4 a
    simp only [UnitForm.bytes, decodeUnit_cons, unitOf, hc, ha, takeConts_of_wellFormed 3 ks h]
  | ileadCont x =>
    obtain ⟨hc, hx⟩ := lead_join_cont x
    simp only [UnitForm.bytes, decodeUnit_cons, unitOf, hc, hx]
  | ileadF8 x =>
    obtain ⟨hc, hx⟩ := lead_join_f8 x
    simp only [UnitForm.bytes, decodeUnit_cons, unitOf, hc, hx]

theorem decode_unit_eq_ok_iff (bs : List Byte) (i : Instr) :
    decode (.unit bs) = .ok i ↔ ∃ u, decodeUnit bs = some u ∧ u.toInstr = i := by
  cases h : decodeUnit bs with
  | none => simp [decode, h]
  | some u => simp [decode, h]

theorem decode_command_eq_ok_iff (c : HostCmd) (i : Instr) :
    decode (.command c) = .ok i ↔ decodeCommand c = .ok i := by
  cases h : decodeCommand c with
  | error r => simp [decode, h]
  | ok j => simp [decode, h]

/-- The round trip of a unit, as an instruction. -/
theorem decode_encode_unit (u : UnitForm) (h : WellFormed u.toInstr) : decode (encode u.toInstr) = .ok u.toInstr := by
  rw [encode_toInstr, decode_unit_eq_ok_iff]
  exact ⟨u, decodeUnit_bytes u h, rfl⟩

/-- Settles O1: a unit's bytes give it back, and so does the command word of each code (R88). -/
theorem decodeOfEncodeGivesInstructionBack : Obligations.DecodeOfEncodeGivesInstructionBack := by
  intro i h
  obtain ⟨hsetbuf, hcodes, -⟩ := commandCodesSelectTransactions
  simp only [forall_and] at hcodes
  obtain ⟨hseek, hnext, hdecode, hencode, hreset⟩ := hcodes
  cases i with
  | u1 v => exact decode_encode_unit (.u1 v) h
  | u2 a ks => exact decode_encode_unit (.u2 a ks) h
  | u3 a ks => exact decode_encode_unit (.u3 a ks) h
  | u4 a ks => exact decode_encode_unit (.u4 a ks) h
  | ileadCont x => exact decode_encode_unit (.ileadCont x) h
  | ileadF8 x => exact decode_encode_unit (.ileadF8 x) h
  | setbuf bytes =>
    have hle : bytes.length ≤ Config.bufCapMax := by simpa [WellFormed, wellFormed] using h
    exact (decode_command_eq_ok_iff _ _).2 (hsetbuf bytes (Nat.lt_succ_of_le hle))
  | seek p => exact (decode_command_eq_ok_iff _ _).2 (hseek p)
  | next x => exact (decode_command_eq_ok_iff _ _).2 (hnext x)
  | decode x => exact (decode_command_eq_ok_iff _ _).2 (hdecode x)
  | encode cp => exact (decode_command_eq_ok_iff _ _).2 (hencode cp)
  | reset x => exact (decode_command_eq_ok_iff _ _).2 (hreset x)

theorem unitFrom_listReader {bs : List Byte} {u : UnitForm} (h : decodeUnit bs = some u) :
    unitFrom (listReader bs) = .ok (some u) := by
  unfold decodeUnit at h
  split at h
  · subst h
    assumption
  · contradiction

/-- Settles O3: each of the unit's bytes is what the decoder read at its position of the string. -/
theorem unitEncodingIsPrefixOfBytes : Obligations.UnitEncodingIsPrefixOfBytes := by
  intro bs u h
  obtain ⟨hw, hread⟩ := unitFrom_read (unitFrom_listReader h)
  have hbegins : u.bytes <+: bs := by
    rw [List.prefix_iff_getElem?]
    intro j hj
    have hbyte : bs[j]? = u.bytes[j]? := Except.ok.inj (hread j hj)
    rw [hbyte, List.getElem?_eq_getElem hj]
  obtain ⟨rest, hrest⟩ := hbegins
  exact ⟨hw, u.bytes, rest, encode_toInstr u, u.bytes_ne_nil, hrest.symm⟩

/-- Settles O5: the six ranges are the six lead classes, and a form takes no more bytes than it has continuation positions. -/
theorem leadByteAloneTellsTheForm : Obligations.LeadByteAloneTellsTheForm := by
  intro b0 rest
  have hlen (n : Nat) : (takeConts n rest).length < n + 1 := Nat.lt_succ_of_le (takeConts_length_le n rest)
  simp only [decodeUnit_cons, unitOf]
  refine ⟨fun h => ?_, fun h => ?_, fun h => ?_, fun h => ?_, fun h => ?_, fun h => ?_⟩
  · rw [leadClass_u1 b0 h]
  · rw [leadClass_cont b0 h]
  · exact ⟨takeConts 1 rest, by rw [leadClass_u2 b0 h], hlen 1⟩
  · exact ⟨takeConts 2 rest, by rw [leadClass_u3 b0 h], hlen 2⟩
  · exact ⟨takeConts 3 rest, by rw [leadClass_u4 b0 h], hlen 3⟩
  · rw [leadClass_f8 b0 h]

/-! ## Commands -/

/-- A command is the word of its `op` and its `arg`, and its payload. -/
theorem command_eta {c : HostCmd} {op : BitVec 3} (h : c.op = op) : ⟨commandWord op c.arg, c.payload⟩ = c := by
  rw [← h, commandWord_op_arg]

/-- The same for a command that no byte accompanies. -/
theorem command_eta_nil {c : HostCmd} {op : BitVec 3} (hp : c.payload = []) (h : c.op = op) :
    ⟨commandWord op c.arg, []⟩ = c := by
  rw [← hp, command_eta h]

/-- Settles O2: the instruction keeps `arg`, and the code of its constructor is the command's `op`. -/
theorem commandWordHasOneMeaning : Obligations.CommandWordHasOneMeaning := by
  intro c i h
  rcases decodeCommand_ok h with ⟨hop, hlen, rfl⟩ |
    ⟨hp, ⟨hop, rfl⟩ | ⟨hop, rfl⟩ | ⟨hop, rfl⟩ | ⟨hop, rfl⟩ | ⟨hop, rfl⟩⟩
  · have hle : c.payload.length ≤ Config.bufCapMax := by
      rw [hlen]
      exact Nat.le_of_lt_succ c.arg.isLt
    refine ⟨decide_eq_true hle, ?_⟩
    rw [encode, hlen, BitVec.ofNat_toNat, BitVec.setWidth_eq, command_eta hop]
  all_goals exact ⟨rfl, congrArg Encoded.command (command_eta_nil hp hop)⟩

/-! ## Words of the opcode table -/

/-- Settles O4: each word decoded, by computation; the words are closed. -/
theorem writtenOutWordsDecode : Obligations.WrittenOutWordsDecode := by
  unfold Obligations.WrittenOutWordsDecode
  decide

end Sys2Proof.Machine
end

section
/-! PROOFS. The step (00_scope.md R9, 30_encoding.md R89, 60_exceptions.md R172): which command it takes, what it performs and
what it refuses. A step refuses either because the command decodes to nothing, which `decodeCommand_eq_error_iff` lists, or
because `exec` refuses the instruction, which `exec_refused_iff` lists. -/

namespace Sys2Proof.Machine

/-! ## What a step performs -/

/-- Settles O7: the rule of a command that decodes. -/
theorem stepRunsDecodedCommand : Obligations.StepRunsDecodedCommand :=
  fun _ _ _ _ hq hd => step_run hq hd

/-- Settles O9: the rule of an empty queue. -/
theorem idleStepHoldsState : Obligations.IdleStepHoldsState := fun _ hq => step_idle hq

/-- Settles O8: on readable bytes `NEXT` dispatches on the unit they begin with. -/
theorem nextRunsUnitAtCursor : Obligations.NextRunsUnitAtCursor := by
  intro s x bs u h hu
  cases bs with
  | nil => simp at hu
  | cons b0 rest =>
    obtain rfl : unitOf b0 rest = u := by simpa using hu
    rw [exec_next, nextUnit_of_cursor h, exec_toInstr]

/-! ## A placed encoding -/

theorem decodeCommand_nextCmd : decodeCommand nextCmd = .ok (.next 0) := by decide

/-- The step after a command is put first performs it, before the commands that waited. -/
theorem step_issueFirst {c : HostCmd} {i : Instr} (h : decodeCommand c = .ok i) (s : State) :
    step (s.issueFirst c) = exec i ((s.issueFirst c).withPending s.pending) := step_run rfl h

/-- The step after an encoding is placed performs its instruction; the bytes of a unit must fit after the cursor. -/
theorem step_placeEncoded {s : State} {e : Encoded} {i : Instr} (h : decode e = .ok i)
    (hroom : ∀ bs, e = .unit bs → s.pos + bs.length ≤ s.bufCap) :
    step (s.placeEncoded e) = exec i ((s.placeEncoded e).withPending s.pending) := by
  cases e with
  | command c => exact step_issueFirst ((decode_command_eq_ok_iff c i).1 h) s
  | unit bs =>
    obtain ⟨u, hu, rfl⟩ := (decode_unit_eq_ok_iff bs i).1 h
    have hcursor : CursorHolds ((s.placeEncoded (.unit bs)).withPending s.pending) bs :=
      cursorHolds_placeUnit s bs (hroom bs rfl)
    exact (step_issueFirst decodeCommand_nextCmd (s.placeUnit bs)).trans (nextRunsUnitAtCursor _ 0 bs u hcursor hu)

@[simp] theorem length_tableBytes (n w : Nat) : (tableBytes n w).length = n := by
  induction n with
  | zero => rfl
  | succ n ih => rw [tableBytes, List.length_cons, ih]

/-- The bytes of a table word of a unit are as many as hold its bits. -/
theorem length_of_tableEncoded_eq_unit {nbits w : Nat} {bs : List Byte} (h : tableEncoded nbits w = .unit bs) :
    nbits ≤ 32 ∧ bs.length = (nbits + 7) / 8 := by
  unfold tableEncoded at h
  split at h
  · obtain rfl := Encoded.unit.inj h
    exact ⟨by assumption, length_tableBytes _ _⟩
  · contradiction

theorem decode_tableEncoded {nbits w : Nat} {i : Instr} (h : decodeTableWord nbits w = some i) :
    decode (tableEncoded nbits w) = .ok i := by
  unfold decodeTableWord at h
  split at h
  · contradiction
  · split at h
    · obtain rfl := Option.some.inj h
      assumption
    · contradiction

/-- Settles O10: `withFetchWord` places the encoding that the table word decodes by. -/
theorem stepRunsPlacedTableWord : Obligations.StepRunsPlacedTableWord := by
  intro s nbits w i h hroom
  refine step_placeEncoded (decode_tableEncoded h) fun bs hbs => ?_
  obtain ⟨hunit, hlen⟩ := length_of_tableEncoded_eq_unit hbs
  rw [hlen]
  exact hroom hunit

/-! ## What a step refuses -/

/-- The number of bytes that accompany a command (30_encoding.md R88). -/
def payloadDue (c : HostCmd) : Nat := if c.op = 1 then c.arg.toNat else 0

theorem noPayload_eq_error_iff (c : HostCmd) (i : Instr) (r : CommandReject) :
    noPayload c i = .error r ↔ r = .payloadLength ∧ c.payload.length ≠ 0 := by
  by_cases hp : c.payload = []
  · simp [noPayload, hp]
  · have hlen : c.payload.length ≠ 0 := mt List.length_eq_zero_iff.1 hp
    simp [noPayload, hp, hlen, eq_comm]

/-- Why a command is no transaction (30_encoding.md R89; assumption 6). -/
theorem decodeCommand_eq_error_iff (c : HostCmd) (r : CommandReject) :
    decodeCommand c = .error r ↔
      (r = .unassignedOp ∧ (c.op = 0 ∨ c.op = 6)) ∨
      (r = .payloadLength ∧ c.op ≠ 0 ∧ c.op ≠ 6 ∧ c.payload.length ≠ payloadDue c) := by
  have hops : ∀ op : BitVec 3, op = 0 ∨ op = 6 ∨ op = 1 ∨ op = 2 ∨ op = 3 ∨ op = 4 ∨ op = 5 ∨ op = 7 := by decide
  rw [decodeCommand_eq, payloadDue]
  rcases hops c.op with h | h | h | h | h | h | h | h
  · simp [h, eq_comm]
  · simp [h, eq_comm]
  · by_cases hlen : c.payload.length = c.arg.toNat
    · simp [h, hlen]
    · simp [h, hlen, eq_comm]
  all_goals simp [h, noPayload_eq_error_iff]

theorem decodeCommand_eq_setbuf_iff (c : HostCmd) (bs : List Byte) :
    decodeCommand c = .ok (.setbuf bs) ↔ c.op = 1 ∧ c.payload.length = c.arg.toNat ∧ bs = c.payload := by
  constructor
  · intro h
    simpa using decodeCommand_ok h
  · rintro ⟨hop, hlen, rfl⟩
    rw [decodeCommand_eq, if_pos hop, if_pos hlen]

theorem decodeCommand_eq_seek_iff (c : HostCmd) (p : BitVec 32) :
    decodeCommand c = .ok (.seek p) ↔ c.op = 2 ∧ c.payload = [] ∧ p = c.arg := by
  constructor
  · intro h
    obtain ⟨hp, hop, harg⟩ : c.payload = [] ∧ c.op = 2 ∧ p = c.arg := by simpa using decodeCommand_ok h
    exact ⟨hop, hp, harg⟩
  · rintro ⟨hop, hp, rfl⟩
    simp [decodeCommand_eq, hop, noPayload, hp]

/-- A step refuses a command that decodes to nothing, or what `exec` refuses of the instruction it decodes to. -/
theorem step_refused_iff (s : State) (r : Refusal) :
    step s = .refused r ↔
      ∃ c q, s.pending = c :: q ∧
        ((∃ e, decodeCommand c = .error e ∧ r = rejectedAs e) ∨
         (∃ i, decodeCommand c = .ok i ∧ exec i (s.withPending q) = .refused r)) := by
  rcases step_cases s with ⟨hq, hs⟩ | ⟨c, q, e, hq, hd, hs⟩ | ⟨c, q, i, hq, hd, hs⟩
  · simp [hq, hs]
  · simp [hq, hs, hd, eq_comm]
  · simp [hq, hs, hd]

theorem command_rejected_iff (c : HostCmd) (r : Refusal) :
    (∃ e, decodeCommand c = .error e ∧ r = rejectedAs e) ↔
      (r = .unassignedOp ∧ (c.op = 0 ∨ c.op = 6)) ∨
      (r = .payloadLength ∧ c.op ≠ 0 ∧ c.op ≠ 6 ∧ c.payload.length ≠ payloadDue c) := by
  simp only [decodeCommand_eq_error_iff]
  constructor
  · rintro ⟨e, ⟨rfl, hop⟩ | ⟨rfl, hlen⟩, rfl⟩
    · exact .inl ⟨rfl, hop⟩
    · exact .inr ⟨rfl, hlen⟩
  · rintro (⟨rfl, hop⟩ | ⟨rfl, hlen⟩)
    · exact ⟨_, .inl ⟨rfl, hop⟩, rfl⟩
    · exact ⟨_, .inr ⟨rfl, hlen⟩, rfl⟩

/-- Of the instructions of commands, `SETBUF` and `SEEK` alone are refused (60_exceptions.md R172). -/
theorem command_exec_refused_iff (c : HostCmd) (s : State) (r : Refusal) :
    (∃ i, decodeCommand c = .ok i ∧ exec i s = .refused r) ↔
      (r = .setbufTooLong ∧ c.op = 1 ∧ c.payload.length = c.arg.toNat ∧ s.bufCap < c.payload.length) ∨
      (r = .seekBeyondEnd ∧ c.op = 2 ∧ c.payload = [] ∧ s.endPos < c.arg.toNat) := by
  simp only [exec_refused_iff]
  constructor
  · rintro ⟨_, hd, ⟨bs, rfl, hlong, rfl⟩ | ⟨p, rfl, hbeyond, rfl⟩⟩
    · obtain ⟨hop, hlen, rfl⟩ := (decodeCommand_eq_setbuf_iff c bs).1 hd
      exact .inl ⟨rfl, hop, hlen, hlong⟩
    · obtain ⟨hop, hp, rfl⟩ := (decodeCommand_eq_seek_iff c p).1 hd
      exact .inr ⟨rfl, hop, hp, hbeyond⟩
  · rintro (⟨rfl, hop, hlen, hlong⟩ | ⟨rfl, hop, hp, hbeyond⟩)
    · exact ⟨_, (decodeCommand_eq_setbuf_iff c _).2 ⟨hop, hlen, rfl⟩, .inl ⟨_, rfl, hlong, rfl⟩⟩
    · exact ⟨_, (decodeCommand_eq_seek_iff c _).2 ⟨hop, hp, rfl⟩, .inr ⟨_, rfl, hbeyond, rfl⟩⟩

/-- Settles O11: the two refusals of the command and the two of its instruction. -/
theorem stepRefusesExactlyTheListed : Obligations.StepRefusesExactlyTheListed := by
  intro s r
  rw [step_refused_iff]
  refine exists₂_congr fun c q => and_congr_right fun _ => ?_
  rw [command_rejected_iff, command_exec_refused_iff, or_assoc]
  rfl

end Sys2Proof.Machine
end

section
/-! PROOFS. The invariant (10_state.md R24, R39, R40). One lemma per transaction says that from a state of the invariant it
completes in one, or is refused; `command_outcome` collects them over the commands, and that every step keeps the invariant
and that none faults are both read off it. The unit classes are no commands (30_encoding.md R88): as instructions of their
own they would carry the cursor past the end boundary. -/

namespace Sys2Proof.Machine

/-! ## After reset -/

/-- The reset block of a capacity the parameter admits, whatever commands wait. -/
theorem inv_resetAt {cap : Nat} (hpos : 1 ≤ cap) (hmax : cap ≤ Config.bufCapMax) (q : List HostCmd) :
    Inv { State.resetAt cap with pending := q } where
  capPos := hpos
  capMax := hmax
  posLe := Nat.le_refl 0
  endLe := Nat.zero_le cap
  ocntLe := Nat.le_refl 0
  ibufWf := List.Pairwise.nil
  obufWf := List.Pairwise.nil
  ibufRange := fun _ he => absurd he List.not_mem_nil
  obufRange := fun _ he => absurd he List.not_mem_nil
  ibufValid := fun a ha => absurd ha (Nat.not_lt_zero a)
  obufValid := fun k hk => absurd hk (Nat.not_lt_zero k)
  decoder := .inr ⟨DStatus.noConfusion, rfl, rfl⟩
  encoder := .inr ⟨EStatus.noConfusion, rfl, rfl⟩

/-- Settles O49: a reset block of each capacity, that of `State.reset` among them. -/
theorem invariantHoldsAtReset : Obligations.InvariantHoldsAtReset :=
  ⟨inv_resetAt (by decide) (by decide) [], fun _ hpos hmax => inv_resetAt hpos hmax []⟩

/-! ## Writes that keep the invariant -/

theorem Inv.withPending {s : State} (h : Inv s) (q : List HostCmd) : Inv (s.withPending q) := { h with }

theorem Inv.withPos {s : State} (h : Inv s) {p : Nat} (hp : p ≤ s.endPos) : Inv (s.withPos p) := { h with posLe := hp }

/-- The decoder's result registers cleared under a status that is not `VALUE`. -/
theorem Inv.withNonValue {s : State} (h : Inv s) {st : DStatus} (hst : st ≠ .value) : Inv (s.withResult st 0 0) :=
  { h with decoder := .inr ⟨hst, rfl, rfl⟩ }

/-- Full success of a well-formed unit that ends within the buffer. -/
theorem Inv.afterValue {s : State} (h : Inv s) {us : List Byte} (hw : WellFormedUnit us)
    (hle : s.pos + us.length ≤ s.endPos) : Inv (afterValue s (unitNumber us) us.length) := by
  have hncons : (BitVec.ofNat 3 us.length).toNat = us.length := by
    rw [BitVec.toNat_ofNat, Nat.mod_eq_of_lt (Nat.lt_of_le_of_lt hw.length_le (by decide))]
  exact { h with
    posLe := hle
    decoder := .inl ⟨rfl, hncons.symm ▸ hw.length_pos, hncons.symm ▸ hw.length_le, hw.minimal.1,
      hw.minimal.2.trans hncons.symm⟩ }

theorem encoderResultInv_encodeResult (cp : Codepoint) (s : State) :
    EncoderResultInv (s.withEncoder (encodeResult cp).status (encodeResult cp).len (encodeResult cp).bytes) := by
  rcases encodeResult_cases cp with ⟨-, hr⟩ | ⟨-, hok, hlen, hunit, hw, -, hzero⟩
  · rw [hr]
    exact .inr ⟨EStatus.noConfusion, rfl, rfl⟩
  · have hl : (encodeResult cp).unit.length = (encodeResult cp).len.toNat := hunit.trans hlen.symm
    exact .inl ⟨hok, hl ▸ hw.length_pos, hl ▸ hw.length_le, hw, hzero⟩

/-- Every valid entry of `IBUF` of a state of the invariant holds a byte. -/
theorem Inv.exists_bufferHolds {s : State} (h : Inv s) : ∃ bs, BufferHolds s bs :=
  Machine.exists_bufferHolds h.endLe h.ibufValid

theorem Inv.exists_cursorHolds {s : State} (h : Inv s) : ∃ bs, CursorHolds s bs := by
  obtain ⟨bs, hbs⟩ := h.exists_bufferHolds
  exact ⟨bs.drop s.pos, cursorHolds_drop hbs h.posLe⟩

/-! ## Each transaction -/

/-- A transaction is refused, or completes in a state of the invariant. -/
abbrev CompletesInvOrRefused (r : Result) : Prop := (∃ t, r = .next t ∧ Inv t) ∨ ∃ e, r = .refused e

theorem setbuf_outcome {s : State} (h : Inv s) (bytes : List Byte) : CompletesInvOrRefused (exec (.setbuf bytes) s) := by
  by_cases hfit : bytes.length ≤ s.bufCap
  · refine .inl ⟨_, exec_setbuf_fits hfit, ?_⟩
    exact { h with
      posLe := Nat.zero_le _
      endLe := hfit
      ocntLe := Nat.zero_le _
      ibufWf := Memory.wf_writeFrom bytes 0 h.ibufWf
      ibufRange := Memory.range_writeFrom bytes 0 h.ibufRange (by rw [Nat.zero_add]; exact hfit)
      ibufValid := fun a ha => by
        have hread := Memory.read_writeFrom bytes s.ibuf 0 ha
        rw [Nat.zero_add] at hread
        exact Option.isSome_iff_exists.2 ⟨_, hread⟩
      obufValid := fun k hk => absurd hk (Nat.not_lt_zero k)
      decoder := .inr ⟨DStatus.noConfusion, rfl, rfl⟩ }
  · exact .inr ⟨_, exec_setbuf_refused (Nat.not_le.1 hfit)⟩

theorem seek_outcome {s : State} (h : Inv s) (p : BitVec 32) : CompletesInvOrRefused (exec (.seek p) s) := by
  by_cases hle : p.toNat ≤ s.endPos
  · exact .inl ⟨_, exec_seek_fits hle, (h.withPos hle).withNonValue DStatus.noConfusion⟩
  · exact .inr ⟨_, exec_seek_refused (Nat.not_le.1 hle)⟩

theorem next_completes_inv {s : State} (h : Inv s) (x : BitVec 32) : ∃ t, exec (.next x) s = .next t ∧ Inv t := by
  obtain ⟨bs, hbs⟩ := h.exists_cursorHolds
  obtain ⟨t, ht⟩ := nextUnit_completes hbs
  refine ⟨t, ht, ?_⟩
  rcases nextUnit_cases ht with ⟨-, rfl⟩ | ⟨-, k, rfl⟩ | ⟨us, hw, hle, -, rfl⟩
  · exact h.withNonValue DStatus.noConfusion
  · exact h.withNonValue DStatus.noConfusion
  · exact h.afterValue hw hle

/-- Well-formed units are not empty, so there are no more of them than bytes. -/
theorem length_le_length_flatten {us : List (List Byte)} (hw : ∀ u ∈ us, WellFormedUnit u) :
    us.length ≤ us.flatten.length := by
  induction us with
  | nil => exact Nat.le_refl 0
  | cons u us ih =>
    obtain ⟨hu, hus⟩ := List.forall_mem_cons.1 hw
    have := hu.length_pos
    have := ih hus
    simp only [List.flatten_cons, List.length_append, List.length_cons]
    omega

theorem StopsWith.ne_value {rest : List Byte} {st : DStatus} (h : StopsWith rest st) : st ≠ .value := h.1

theorem Inv.afterDecode {s : State} (h : Inv s) {us : List (List Byte)} {st : DStatus}
    (hw : ∀ u ∈ us, WellFormedUnit u) (hle : us.flatten.length ≤ s.endPos) (hst : st ≠ .value) :
    Inv (afterDecode s us st) := by
  have hcount := length_le_length_flatten hw
  have hroom : 0 + (us.map unitCodepoint).length ≤ s.bufCap := by
    rw [Nat.zero_add, List.length_map]
    exact (hcount.trans hle).trans h.endLe
  exact { h with
    posLe := hle
    ocntLe := hcount.trans hle
    obufWf := Memory.wf_writeFrom _ 0 h.obufWf
    obufRange := Memory.range_writeFrom _ 0 h.obufRange hroom
    obufValid := fun k hk => by rw [hostReadObuf_afterDecode s st hk]; rfl
    decoder := .inr ⟨hst, rfl, rfl⟩ }

theorem decode_completes_inv {s : State} (h : Inv s) (x : BitVec 32) : ∃ t, exec (.decode x) s = .next t ∧ Inv t := by
  obtain ⟨bs, hbs⟩ := h.exists_bufferHolds
  obtain ⟨us, rest, st, hw, hcut, hst, hdec⟩ := exec_decode_cut hbs x
  have hle : us.flatten.length ≤ s.endPos := by
    rw [bufferHolds_length hbs, hcut, List.length_append]
    omega
  exact ⟨_, hdec, h.afterDecode hw hle hst.ne_value⟩

/-- Every transaction a command stands for. -/
theorem command_outcome {s : State} {c : HostCmd} {i : Instr} (h : Inv s) (hd : decodeCommand c = .ok i) :
    CompletesInvOrRefused (exec i s) := by
  rcases decodeCommand_ok hd with ⟨-, -, rfl⟩ | ⟨-, ⟨-, rfl⟩ | ⟨-, rfl⟩ | ⟨-, rfl⟩ | ⟨-, rfl⟩ | ⟨-, rfl⟩⟩
  · exact setbuf_outcome h c.payload
  · exact seek_outcome h c.arg
  · exact .inl (next_completes_inv h c.arg)
  · exact .inl (decode_completes_inv h c.arg)
  · exact .inl ⟨_, exec_encode c.arg s, { h with encoder := encoderResultInv_encodeResult c.arg s }⟩
  · exact .inl ⟨_, exec_reset c.arg s, inv_resetAt h.capPos h.capMax s.pending⟩

/-! ## Every step -/

theorem step_outcome {s : State} (h : Inv s) : CompletesInvOrRefused (step s) := by
  rcases step_cases s with ⟨-, hs⟩ | ⟨c, q, e, -, -, hs⟩ | ⟨c, q, i, -, hd, hs⟩
  · exact .inl ⟨s, hs, h⟩
  · exact .inr ⟨_, hs⟩
  · rw [hs]
    exact command_outcome (h.withPending q) hd

/-- Settles O50: the state in which the step completes is of the invariant. -/
theorem stepKeepsInvariant : Obligations.StepKeepsInvariant := by
  intro s t h hs
  rcases step_outcome h with ⟨u, hu, hinv⟩ | ⟨e, he⟩
  · obtain rfl : u = t := Host.Outcome.next.inj (hu.symm.trans hs)
    exact hinv
  · rw [he] at hs
    cases hs

/-- Settles O51: the step completes or is refused. -/
theorem noFaultFromInvariantStates : Obligations.NoFaultFromInvariantStates := by
  intro s f h hs
  rcases step_outcome h with ⟨t, ht, -⟩ | ⟨e, he⟩
  · rw [ht] at hs
    cases hs
  · rw [he] at hs
    cases hs

/-! ## The widths of the registers -/

/-- A position up to the capacity fits `POS_W` bits (00_scope.md R4). -/
theorem lt_two_pow_posW {n cap : Nat} (h : n ≤ cap) : n < 2 ^ Nat.clog 2 (cap + 1) :=
  Nat.lt_of_lt_of_le (Nat.lt_succ_of_le h) (Nat.le_pow_clog Nat.one_lt_two (cap + 1))

/-- Settles O52: the three positions lie within the capacity, every other register is as many bits wide as the table says. -/
theorem registersFitTheirWidths : Obligations.RegistersFitTheirWidths := by
  intro s r h
  cases r with
  | endPos => exact lt_two_pow_posW h.endLe
  | pos => exact lt_two_pow_posW (h.posLe.trans h.endLe)
  | ocnt => exact lt_two_pow_posW (h.ocntLe.trans h.endLe)
  | dStatus => exact s.dStatus.code.isLt
  | dCp => exact s.dCp.isLt
  | dNcons => exact s.dNcons.isLt
  | eStatus => exact s.eStatus.code.isLt
  | eLen => exact s.eLen.isLt
  | eB0 => exact s.eB.b0.isLt
  | eB1 => exact s.eB.b1.isLt
  | eB2 => exact s.eB.b2.isLt
  | eB3 => exact s.eB.b3.isLt

end Sys2Proof.Machine
end

section
/-! PROOFS. What `NEXT` and the unit classes write and what they read (30_encoding.md R92, 41_decoder.md R110). A unit's effect
is one law, `exists_unit_effect`: the three result registers it writes and the distance it moves the cursor are functions of
the unit alone, and the cursor moves only with a `VALUE`. -/

namespace Sys2Proof.Machine

/-! ## The effect of a unit -/

/-- The result registers written and the cursor moved. -/
def State.withEffect (s : State) (st : DStatus) (cp : Codepoint) (n : BitVec 3) : State :=
  (s.withResult st cp n).withPos (s.pos + if st = .value then n.toNat else 0)

/-- How a multi-byte form ends, whatever the state. -/
theorem exists_finishUnit_effect {len : Nat} (hlen : len ≤ 4) (r : Except ErrorKind Codepoint) :
    ∃ st cp n, ∀ s, finishUnit len r s = .next (s.withEffect st cp n) := by
  cases r with
  | error k => exact ⟨.error k, 0, 0, fun s => rfl⟩
  | ok v =>
    have hn : (BitVec.ofNat 3 len).toNat = len := by
      rw [BitVec.toNat_ofNat, Nat.mod_eq_of_lt (Nat.lt_of_le_of_lt hlen (by decide))]
    refine ⟨.value, v, BitVec.ofNat 3 len, fun s => ?_⟩
    rw [State.withEffect, if_pos rfl, hn]
    rfl

/-- What a unit writes is a function of the unit alone. -/
theorem exists_unit_effect (u : UnitForm) : ∃ st cp n, ∀ s, runUnit u s = .next (s.withEffect st cp n) := by
  cases u with
  | u1 v => exact ⟨.value, v.setWidth 32, 1, fun s => rfl⟩
  | u2 a ks => exact exists_finishUnit_effect (by decide) _
  | u3 a ks => exact exists_finishUnit_effect (by decide) _
  | u4 a ks => exact exists_finishUnit_effect (by decide) _
  | ileadCont x => exact ⟨.error .invalidLeadByte, 0, 0, fun s => rfl⟩
  | ileadF8 x => exact ⟨.error .invalidLeadByte, 0, 0, fun s => rfl⟩

theorem runUnit_effect {u : UnitForm} {s t : State} (h : runUnit u s = .next t) :
    t = s.withEffect t.dStatus t.dCp t.dNcons := by
  obtain ⟨st, cp, n, heff⟩ := exists_unit_effect u
  obtain rfl := Host.Outcome.next.inj ((heff s).symm.trans h)
  rfl

theorem nextUnit_effect {s t : State} (h : nextUnit s = .next t) : t = s.withEffect t.dStatus t.dCp t.dNcons := by
  unfold nextUnit at h
  split at h
  · obtain rfl := Host.Outcome.next.inj h
    rfl
  · split at h
    · cases h
    · cases h
    · exact runUnit_effect h

/-! ## What is written (R110) -/

/-- `NEXT` and the unit classes. -/
abbrev IsNextOrUnit (i : Instr) : Prop := (∃ x, i = .next x) ∨ ∃ u : UnitForm, i = u.toInstr

theorem instr_cases (i : Instr) :
    IsNextOrUnit i ∨ (∃ bytes, i = .setbuf bytes) ∨ (∃ p, i = .seek p) ∨ (∃ x, i = .decode x) ∨
      (∃ cp, i = .encode cp) ∨ ∃ x, i = .reset x := by
  cases i with
  | u1 v => exact .inl (.inr ⟨.u1 v, rfl⟩)
  | u2 a ks => exact .inl (.inr ⟨.u2 a ks, rfl⟩)
  | u3 a ks => exact .inl (.inr ⟨.u3 a ks, rfl⟩)
  | u4 a ks => exact .inl (.inr ⟨.u4 a ks, rfl⟩)
  | ileadCont x => exact .inl (.inr ⟨.ileadCont x, rfl⟩)
  | ileadF8 x => exact .inl (.inr ⟨.ileadF8 x, rfl⟩)
  | next x => exact .inl (.inl ⟨x, rfl⟩)
  | setbuf bytes => exact .inr (.inl ⟨bytes, rfl⟩)
  | seek p => exact .inr (.inr (.inl ⟨p, rfl⟩))
  | decode x => exact .inr (.inr (.inr (.inl ⟨x, rfl⟩)))
  | encode cp => exact .inr (.inr (.inr (.inr (.inl ⟨cp, rfl⟩))))
  | reset x => exact .inr (.inr (.inr (.inr (.inr ⟨x, rfl⟩))))

theorem exec_nextOrUnit_effect {i : Instr} {s t : State} (hi : IsNextOrUnit i) (h : exec i s = .next t) :
    t = s.withEffect t.dStatus t.dCp t.dNcons := by
  rcases hi with ⟨x, rfl⟩ | ⟨u, rfl⟩
  · exact nextUnit_effect h
  · rw [exec_toInstr] at h
    exact runUnit_effect h

/-- Settles O28: the effect of a unit is the frame, and says how far the cursor moves. -/
theorem nextAndUnitsFrame : Obligations.NextAndUnitsFrame := by
  intro i s t hset hseek hdec henc hreset h
  have hi : IsNextOrUnit i := by
    rcases instr_cases i with hi | ⟨bytes, hi⟩ | ⟨p, hi⟩ | ⟨y, hi⟩ | ⟨cp, hi⟩ | ⟨y, hi⟩
    · exact hi
    · exact absurd hi (hset bytes)
    · exact absurd hi (hseek p)
    · exact absurd hi (hdec y)
    · exact absurd hi (henc cp)
    · exact absurd hi (hreset y)
  have ht := exec_nextOrUnit_effect hi h
  generalize t.dStatus = st, t.dCp = cp, t.dNcons = n at ht
  subst ht
  exact ⟨rfl, fun _ => rfl, fun _ => rfl, rfl⟩

/-! ## What is read (R92) -/

theorem DStatus.code_bounds {st : DStatus} (h : st ≠ .none) : 1 ≤ st.code.toNat ∧ st.code.toNat ≤ 8 := by
  cases st with
  | none => exact absurd rfl h
  | value => decide
  | endOfInput => decide
  | error k => cases k <;> decide

/-- States that agree in `POS`, `END` and the window of four bytes, each with `END` within its memory. -/
structure SameWindow (s s' : State) : Prop where
  fits : s.endPos ≤ s.bufCap
  fits' : s'.endPos ≤ s'.bufCap
  pos : s.pos = s'.pos
  endPos : s.endPos = s'.endPos
  bytes : ∀ k, k < 4 → s.pos + k < s.endPos → hostReadIbuf s (s.pos + k) = hostReadIbuf s' (s.pos + k)

theorem SameWindow.ibufRead {s s' : State} (h : SameWindow s s') {k : Nat} (hk : k < 4) (hlt : s.pos + k < s.endPos) :
    ibufRead s (s.pos + k) = ibufRead s' (s.pos + k) := by
  have hfits := h.fits
  have hfits' := h.fits'
  have hend := h.endPos
  have hread : Memory.read s.ibuf (s.pos + k) = Memory.read s'.ibuf (s.pos + k) := h.bytes k hk hlt
  rw [Machine.ibufRead, Machine.ibufRead, if_pos (by omega), if_pos (by omega), hread]

theorem SameWindow.cursorReader {s s' : State} (h : SameWindow s s') {k : Nat} (hk : k < 4) :
    cursorReader s k = cursorReader s' k := by
  rw [Machine.cursorReader, Machine.cursorReader, ← h.pos, ← h.endPos]
  by_cases hlt : s.pos + k < s.endPos
  · rw [h.ibufRead hk hlt]
  · rw [if_pos (Nat.not_lt.1 hlt), if_pos (Nat.not_lt.1 hlt)]

/-- From such states the decoder finds the same unit, which has the same effect. -/
theorem SameWindow.exists_effect {s s' t t' : State} (h : SameWindow s s') (ht : nextUnit s = .next t)
    (ht' : nextUnit s' = .next t') :
    ∃ st cp n, t = s.withEffect st cp n ∧ t' = s'.withEffect st cp n := by
  by_cases hp : s.pos = s.endPos
  · have hp' : s'.pos = s'.endPos := by rw [← h.pos, ← h.endPos, hp]
    rw [nextUnit_at_end hp] at ht
    rw [nextUnit_at_end hp'] at ht'
    exact ⟨.endOfInput, 0, 0, (Host.Outcome.next.inj ht).symm, (Host.Outcome.next.inj ht').symm⟩
  · have hp' : ¬ s'.pos = s'.endPos := by rw [← h.pos, ← h.endPos]; exact hp
    rw [nextUnit, if_neg hp, unitFrom_congr fun k hk => h.cursorReader hk] at ht
    rw [nextUnit, if_neg hp'] at ht'
    rcases hu : unitFrom (Machine.cursorReader s') with f | _ | u
    · rw [hu] at ht
      cases ht
    · rw [hu] at ht
      cases ht
    · rw [hu] at ht ht'
      obtain ⟨st, cp, n, heff⟩ := exists_unit_effect u
      exact ⟨st, cp, n, Host.Outcome.next.inj (ht.symm.trans (heff s)), Host.Outcome.next.inj (ht'.symm.trans (heff s'))⟩

/-- Settles O18: `NEXT` completes with a status other than `NONE`, and its effect is that of the unit in the window. -/
theorem nextIsTotalAndReadsItsWindowOnly : Obligations.NextIsTotalAndReadsItsWindowOnly := by
  refine ⟨fun s x bs h => ?_, fun s s' t t' x x' hfits hfits' hpos hend hbytes ht ht' => ?_⟩
  · obtain ⟨t, ht⟩ := nextUnit_completes h
    exact ⟨t, ht, DStatus.code_bounds (nextUnit_status_ne_none ht)⟩
  · obtain ⟨st, cp, n, rfl, rfl⟩ := SameWindow.exists_effect ⟨hfits, hfits', hpos, hend, hbytes⟩ ht ht'
    exact ⟨rfl, rfl, rfl, congrArg (· + _) hpos⟩

/-! ## A continuation byte at the cursor (20_memory.md R54) -/

theorem cursorReader_of_read {s : State} {k : Nat} {b : Byte} (hend : s.endPos ≤ s.bufCap) (hlt : s.pos + k < s.endPos)
    (h : hostReadIbuf s (s.pos + k) = some b) : cursorReader s k = .ok (some b) := by
  have hread : Memory.read s.ibuf (s.pos + k) = some b := h
  rw [cursorReader, if_neg (Nat.not_le.2 hlt), ibufRead, if_pos ⟨hlt, Nat.lt_of_lt_of_le hlt hend⟩, hread]

/-- A continuation byte is a unit of its own, whatever the reader answers at other positions. -/
theorem unitFrom_of_isCont {ε : Type} {read : Nat → Except ε (Option Byte)} {b : Byte} (h : read 0 = .ok (some b))
    (hb : IsCont b) : unitFrom read = .ok (some (.ileadCont (b.setWidth 6))) := by
  simp only [unitFrom, h, leadClass_cont b hb]

theorem nextUnit_of_isCont {s : State} {b : Byte} (hend : s.endPos ≤ s.bufCap) (hlt : s.pos < s.endPos)
    (h : hostReadIbuf s s.pos = some b) (hb : IsCont b) : nextUnit s = .next (afterError s .invalidLeadByte) := by
  have hread : cursorReader s 0 = .ok (some b) := cursorReader_of_read hend hlt h
  rw [nextUnit, if_neg (Nat.ne_of_lt hlt), unitFrom_of_isCont hread hb]
  rfl

/-- Settles O56: `SEEK` places the cursor, and `NEXT` needs to read only the byte there. -/
theorem seekIntoUnitFindsInvalidLead : Obligations.SeekIntoUnitFindsInvalidLead := by
  intro s p b hend hlt hread hb
  have hnext : nextUnit { s with pos := p.toNat, dStatus := .none, dCp := 0, dNcons := 0 } =
      .next { s with pos := p.toNat, dStatus := .error .invalidLeadByte, dCp := 0, dNcons := 0 } :=
    nextUnit_of_isCont hend hlt hread hb
  rw [runAll, exec_seek_fits (Nat.le_of_lt hlt)]
  simp only [runAll, exec_next, hnext]

end Sys2Proof.Machine
end

section
/-! PROOFS. `DECODE`: its bound, its frame and its repetition (41_decoder.md R120 to R124). From a readable buffer its end
state is `afterDecode` of the cut of the bytes; in any state `decodeLoop_next` says what it writes. -/

namespace Sys2Proof.Machine

/-- Settles O29: the loop starts with `END` bytes left (41_decoder.md R124). -/
theorem decodeNeverExceedsItsBound : Obligations.DecodeNeverExceedsItsBound := by
  intro s x
  rw [exec_decode]
  exact decodeLoop_ne_loopBound (Nat.zero_le _) (Nat.lt_succ_of_le (Nat.sub_le _ _))

/-- The bytes that follow the first ones of a readable buffer, at the cursor placed there. -/
theorem cursorHolds_rest {s : State} {us rest : List Byte} (h : BufferHolds s (us ++ rest)) :
    CursorHolds (s.withPos us.length) rest := by
  have hcursor : CursorHolds (s.withPos 0) (us ++ rest) := cursorHolds_of_bufferHolds h rfl
  exact hcursor.advance rfl rfl rfl (Nat.zero_add _).symm

/-- Settles O30: the end state is that of the cut, and `NEXT` fails at the rest from every state whose cursor holds it. -/
theorem decodeConsumesUnitsUntilFirstFailure : Obligations.DecodeConsumesUnitsUntilFirstFailure := by
  intro s x bs h
  obtain ⟨t, us, rest, hdec, hw, rfl, ht, hend⟩ := exec_decode_readable h x
  have hseq : decodedSequence t = us.map fun u => some (unitCodepoint u) := by
    rw [ht, decodedSequence_afterDecode, List.map_map]
    rfl
  have hpos : t.pos = us.flatten.length := by rw [ht]
  refine ⟨t, us, rest, hdec, hw, rfl, hpos, by rw [ht], hseq, by rw [ht], by rw [ht], hend.imp_right ?_⟩
  rintro ⟨hrest, k, hk, hfail⟩
  refine ⟨hrest, k, hk, _, hfail (s.withPos t.pos) ?_, rfl⟩
  rw [hpos]
  exact cursorHolds_rest h

/-- Settles O33: the second `DECODE` follows the same cut, and writes into `OBUF` what stands there. -/
theorem decodeTwiceGivesSameState : Obligations.DecodeTwiceGivesSameState := by
  intro s t x y hinv hdec
  obtain ⟨bs, hbs⟩ := hinv.exists_bufferHolds
  obtain ⟨us, rest, st, hw, rfl, hst, hcut⟩ := exec_decode_cut hbs x
  obtain rfl : afterDecode s us st = t := Host.Outcome.next.inj (hcut.symm.trans hdec)
  have hagain := exec_decode_units (s := afterDecode s us st) hbs hw hst y
  have hobuf : Memory.writeFrom (afterDecode s us st).obuf 0 (us.map unitCodepoint) = (afterDecode s us st).obuf := by
    refine Memory.writeFrom_eq_self _ 0 (Memory.wf_writeFrom _ 0 hinv.obufWf) fun k hk => ?_
    exact Memory.read_writeFrom (us.map unitCodepoint) s.obuf 0 hk
  rw [hagain, afterDecode, hobuf]

/-- Settles O35: the loop writes consecutive entries of `OBUF`, up to the final `OCNT`. -/
theorem decodeFrame : Obligations.DecodeFrame := by
  intro s t x h
  rw [exec_decode] at h
  obtain ⟨cps, ht, -⟩ := decodeLoop_next h
  rw [ht]
  refine ⟨rfl, fun _ => rfl, fun k hk => ?_⟩
  exact Memory.read_writeFrom_other cps s.obuf 0 k (.inr hk)

end Sys2Proof.Machine
end

section
/-! PROOFS. What each transaction leaves unchanged (10_state.md R22, R25, R26; 42_encoder.md R140), and the block after reset
(10_state.md R38). -/

namespace Sys2Proof.Machine

/-! ## The frames of SETBUF and SEEK -/

theorem exec_setbuf_frame {bytes : List Byte} {s t : State} (h : exec (.setbuf bytes) s = .next t) :
    t = { s with ibuf := t.ibuf, endPos := t.endPos, pos := t.pos, dStatus := t.dStatus, dCp := t.dCp,
                 dNcons := t.dNcons, ocnt := t.ocnt } := by
  by_cases hfit : bytes.length ≤ s.bufCap
  · rw [exec_setbuf_fits hfit] at h
    obtain rfl := Host.Outcome.next.inj h
    rfl
  · rw [exec_setbuf_refused (Nat.not_le.1 hfit)] at h
    cases h

theorem exec_seek_frame {p : BitVec 32} {s t : State} (h : exec (.seek p) s = .next t) :
    t = { s with pos := t.pos, dStatus := t.dStatus, dCp := t.dCp, dNcons := t.dNcons } := by
  by_cases hle : p.toNat ≤ s.endPos
  · rw [exec_seek_fits hle] at h
    obtain rfl := Host.Outcome.next.inj h
    rfl
  · rw [exec_seek_refused (Nat.not_le.1 hle)] at h
    cases h

/-- Settles O41: the registers written are `encodeResult`'s, which reads no state. -/
theorem encodeFrameAndPurity : Obligations.EncodeFrameAndPurity := fun cp s s' =>
  ⟨_, _, exec_encode cp s, exec_encode cp s', rfl, ⟨rfl, rfl, rfl⟩, fun _ => rfl, fun _ => rfl⟩

/-- Settles O55: each transaction's frame. -/
theorem onlyTheirTransactionsWriteBuffers : Obligations.OnlyTheirTransactionsWriteBuffers := by
  intro i s t h
  rcases instr_cases i with hi | ⟨bytes, rfl⟩ | ⟨p, rfl⟩ | ⟨x, rfl⟩ | ⟨cp, rfl⟩ | ⟨x, rfl⟩
  · rw [exec_nextOrUnit_effect hi h]
    exact ⟨fun _ _ => ⟨rfl, rfl⟩, fun _ _ => rfl, rfl, rfl⟩
  · rw [exec_setbuf_frame h]
    exact ⟨fun hne _ => absurd rfl (hne bytes), fun _ _ => rfl, rfl, rfl⟩
  · rw [exec_seek_frame h]
    exact ⟨fun _ _ => ⟨rfl, rfl⟩, fun _ _ => rfl, rfl, rfl⟩
  · rw [exec_decode_frame h]
    exact ⟨fun _ _ => ⟨rfl, rfl⟩, fun hne _ => absurd rfl (hne x), rfl, rfl⟩
  · rw [exec_encode] at h
    obtain rfl := Host.Outcome.next.inj h
    exact ⟨fun _ _ => ⟨rfl, rfl⟩, fun _ _ => rfl, rfl, rfl⟩
  · rw [exec_reset] at h
    obtain rfl := Host.Outcome.next.inj h
    exact ⟨fun _ hne => absurd rfl (hne x), fun _ hne => absurd rfl (hne x), rfl, rfl⟩

/-- Settles O47: the reset block of the capacity the model chose, with nothing pending. -/
theorem stateAfterResetIsEmptyBuffer : Obligations.StateAfterResetIsEmptyBuffer :=
  ⟨hostRead_resetAt Config.bufCapAtReset [], hostReadIbuf_resetAt Config.bufCapAtReset [],
    hostReadObuf_resetAt Config.bufCapAtReset [], nextUnit_at_end (s := State.reset) rfl,
    exec_decode_empty (s := State.reset) 0 rfl⟩

end Sys2Proof.Machine
end
